-- ==== Sys2Proof/Word.lean ====
section
/-! DEFINITION. The word types of the block (00_scope.md R5, R12): bytes, 16-bit words, 12-bit addresses, and the numbers
that only select (a register, a row count). -/

namespace Sys2Proof

/-- An 8-bit value: a memory cell, a register Vi, a timer, a framebuffer byte (00_scope.md R5). -/
abbrev Byte := BitVec 8

/-- A 16-bit value: an opcode, PC, I, a stack entry, a key mask (00_scope.md R5). -/
abbrev Word := BitVec 16

/-- The 12-bit operand nnn (30_encoding.md R72). -/
abbrev Addr12 := BitVec 12

/-- The number of a general register, the operand x or y (30_encoding.md R72, 10_state.md R21). -/
abbrev Reg := Fin 16

/-- The 4-bit count n of Dxyn and 00Cn (30_encoding.md R72). -/
abbrev Count := Fin 16

/-- VF, the register that doubles as the flag register (10_state.md R22). -/
abbrev vF : Reg := 15

/-- V0, the implicit operand of Bnnn (10_state.md R21). -/
abbrev v0 : Reg := 0

end Sys2Proof
end

