-- ==== Sys2Proof/Machine/Flags.lean ====
section
/-! DEFINITION. The 8-bit ALU (42_alu.md R150): each operation's result and the flag it gives to VF, and the collision flag of
Dxyn. Every value is unsigned and every result wraps modulo 256. -/

namespace Sys2Proof.Machine

/-- A flag as the byte VF receives: 1 or 0 (10_state.md R22). -/
def flagByte (b : Bool) : Byte := if b then 0x01#8 else 0x00#8

/-- ADD: (a + b) mod 256 (42_alu.md R150). -/
def aluAdd (a b : Byte) : Byte := BitVec.ofNat 8 (a.toNat + b.toNat)

/-- The carry out of ADD: 1 if a + b > 255 (42_alu.md R150). -/
def carryFlag (a b : Byte) : Byte := flagByte (decide (255 < a.toNat + b.toNat))

/-- SUB: (a - b) mod 256 (42_alu.md R150). -/
def aluSub (a b : Byte) : Byte := BitVec.ofInt 8 ((a.toNat : Int) - (b.toNat : Int))

/-- "No borrow" of SUB: 1 if a >= b (42_alu.md R150). -/
def noBorrowFlag (a b : Byte) : Byte := flagByte (decide (b.toNat ≤ a.toNat))

/-- SHR: a >> 1 (42_alu.md R150). -/
def aluShr (a : Byte) : Byte := a >>> 1

/-- The bit SHR shifts out: bit 0 of a (42_alu.md R150, R161). -/
def shrFlag (a : Byte) : Byte := a &&& 0x01#8

/-- SHL: (a << 1) mod 256 (42_alu.md R150). -/
def aluShl (a : Byte) : Byte := a <<< 1

/-- The bit SHL shifts out: bit 7 of a (42_alu.md R150, R163). -/
def shlFlag (a : Byte) : Byte := a >>> 7

end Sys2Proof.Machine
end

