-- ==== Sys2Proof/WellFormed.lean ====
section
/-! DEFINITION. Which terms of `Instr` are instructions. Every operand has exactly its field's width by its type; the one
check left is the precedence of 30_encoding.md R73: rows 00E0, 00EE and 00Cn take their words from SYS. -/

namespace Sys2Proof

/-- The 12-bit operand of a SYS word: neither 0x0E0 (CLS), nor 0x0EE (RET), nor 0x0C0 to 0x0CF (CLRFB)
(30_encoding.md R73, R78). -/
def sysOperandFree (nnn : Addr12) : Bool :=
  nnn != 0x0E0#12 && nnn != 0x0EE#12 && nnn.extractLsb' 4 8 != 0x0C#8

/-- The well-formed instructions: each constructor is checked on its own. -/
def Instr.wellFormed : Instr → Bool
  | .sysNnn nnn => sysOperandFree nnn
  | .cls | .ret | .jp _ | .call _ | .seVxNn _ _ | .sneVxNn _ _ | .seVxVy _ _ | .ldVxNn _ _ | .addVxNn _ _
  | .ldVxVy _ _ | .orVxVy _ _ | .andVxVy _ _ | .xorVxVy _ _ | .addVxVy _ _ | .subVxVy _ _ | .shrVxVy _ _
  | .subnVxVy _ _ | .shlVxVy _ _ | .sneVxVy _ _ | .ldINnn _ | .jpV0Nnn _ | .rndVxNn _ _ | .drwVxVyN _ _ _
  | .skpVx _ | .sknpVx _ | .ldVxDt _ | .ldVxK _ | .ldDtVx _ | .ldStVx _ | .addIVx _ | .ldFVx _ | .ldBVx _
  | .ldMemVx _ | .ldVxMem _ | .clrfbN _ => true

end Sys2Proof
end

