-- ==== Sys2Proof/Decode.lean ====
section
/-! DEFINITION. The decoder, total on 16-bit words and on byte lists (30_encoding.md R73), and after it the encoder, from the
same encoding table (R71, R75). -/

namespace Sys2Proof

/-- What the decoder rejects, by name. Both are safe: the step gives an UNKNOWN word the effect 40_execution_cycle.md R108
states, and a fetch always reads two bytes. -/
inductive DecodeReject where
  /-- A word that 30_encoding.md R73 maps to UNKNOWN. -/
  | unknownOpcode (op : Word)
  /-- Fewer than the two bytes of an instruction (30_encoding.md R70). -/
  | truncated (bytes : Nat)
deriving DecidableEq, Repr

/-- The 4-bit field of an opcode whose least significant bit is bit `lo` (30_encoding.md R71). -/
def nibbleAt (op : Word) (lo : Nat) : Fin 16 :=
  ⟨(op.extractLsb' lo 4).toNat, (op.extractLsb' lo 4).isLt⟩

/-- h = op[15:12], the family (30_encoding.md R71). -/
def fieldH (op : Word) : Fin 16 := nibbleAt op 12

/-- x = op[11:8] (30_encoding.md R71). -/
def fieldX (op : Word) : Reg := nibbleAt op 8

/-- y = op[7:4] (30_encoding.md R71). -/
def fieldY (op : Word) : Reg := nibbleAt op 4

/-- n = op[3:0] (30_encoding.md R71). -/
def fieldN (op : Word) : Count := nibbleAt op 0

/-- nn = op[7:0] (30_encoding.md R71). -/
def fieldNN (op : Word) : Byte := op.extractLsb' 0 8

/-- nnn = op[11:0] (30_encoding.md R71). -/
def fieldNNN (op : Word) : Addr12 := op.extractLsb' 0 12

/-- Family 0x0 of 30_encoding.md R73: CLS, RET and CLRFB before SYS. -/
def decodeFamily0 (op : Word) : Except DecodeReject Instr :=
  if op = 0x00E0#16 then .ok .cls
  else if op = 0x00EE#16 then .ok .ret
  else if op.extractLsb' 4 12 = 0x00C#12 then .ok (.clrfbN (fieldN op))
  else .ok (.sysNnn (fieldNNN op))

/-- Family 0x5 of 30_encoding.md R73: the low nibble is fixed (conflict C1). -/
def decodeFamily5 (op : Word) : Except DecodeReject Instr :=
  if fieldN op = 0x0 then .ok (.seVxVy (fieldX op) (fieldY op)) else .error (.unknownOpcode op)

/-- Family 0x9 of 30_encoding.md R73: the low nibble is fixed (conflict C1). -/
def decodeFamily9 (op : Word) : Except DecodeReject Instr :=
  if fieldN op = 0x0 then .ok (.sneVxVy (fieldX op) (fieldY op)) else .error (.unknownOpcode op)

/-- Family 0x8 of 30_encoding.md R73, selected by n. -/
def decodeFamily8 (op : Word) : Except DecodeReject Instr :=
  if fieldN op = 0x0 then .ok (.ldVxVy (fieldX op) (fieldY op))
  else if fieldN op = 0x1 then .ok (.orVxVy (fieldX op) (fieldY op))
  else if fieldN op = 0x2 then .ok (.andVxVy (fieldX op) (fieldY op))
  else if fieldN op = 0x3 then .ok (.xorVxVy (fieldX op) (fieldY op))
  else if fieldN op = 0x4 then .ok (.addVxVy (fieldX op) (fieldY op))
  else if fieldN op = 0x5 then .ok (.subVxVy (fieldX op) (fieldY op))
  else if fieldN op = 0x6 then .ok (.shrVxVy (fieldX op) (fieldY op))
  else if fieldN op = 0x7 then .ok (.subnVxVy (fieldX op) (fieldY op))
  else if fieldN op = 0xE then .ok (.shlVxVy (fieldX op) (fieldY op))
  else .error (.unknownOpcode op)

/-- Family 0xE of 30_encoding.md R73, selected by nn. -/
def decodeFamilyE (op : Word) : Except DecodeReject Instr :=
  if fieldNN op = 0x9E#8 then .ok (.skpVx (fieldX op))
  else if fieldNN op = 0xA1#8 then .ok (.sknpVx (fieldX op))
  else .error (.unknownOpcode op)

/-- Family 0xF of 30_encoding.md R73, selected by nn. -/
def decodeFamilyF (op : Word) : Except DecodeReject Instr :=
  if fieldNN op = 0x07#8 then .ok (.ldVxDt (fieldX op))
  else if fieldNN op = 0x0A#8 then .ok (.ldVxK (fieldX op))
  else if fieldNN op = 0x15#8 then .ok (.ldDtVx (fieldX op))
  else if fieldNN op = 0x18#8 then .ok (.ldStVx (fieldX op))
  else if fieldNN op = 0x1E#8 then .ok (.addIVx (fieldX op))
  else if fieldNN op = 0x29#8 then .ok (.ldFVx (fieldX op))
  else if fieldNN op = 0x33#8 then .ok (.ldBVx (fieldX op))
  else if fieldNN op = 0x55#8 then .ok (.ldMemVx (fieldX op))
  else if fieldNN op = 0x65#8 then .ok (.ldVxMem (fieldX op))
  else .error (.unknownOpcode op)

/-- `Decode(op)` of 30_encoding.md R73. It reads nothing but the word (R74). The last branch is family 0xF, the one family
left. -/
def decode (op : Word) : Except DecodeReject Instr :=
  if fieldH op = 0x0 then decodeFamily0 op
  else if fieldH op = 0x1 then .ok (.jp (fieldNNN op))
  else if fieldH op = 0x2 then .ok (.call (fieldNNN op))
  else if fieldH op = 0x3 then .ok (.seVxNn (fieldX op) (fieldNN op))
  else if fieldH op = 0x4 then .ok (.sneVxNn (fieldX op) (fieldNN op))
  else if fieldH op = 0x5 then decodeFamily5 op
  else if fieldH op = 0x6 then .ok (.ldVxNn (fieldX op) (fieldNN op))
  else if fieldH op = 0x7 then .ok (.addVxNn (fieldX op) (fieldNN op))
  else if fieldH op = 0x8 then decodeFamily8 op
  else if fieldH op = 0x9 then decodeFamily9 op
  else if fieldH op = 0xA then .ok (.ldINnn (fieldNNN op))
  else if fieldH op = 0xB then .ok (.jpV0Nnn (fieldNNN op))
  else if fieldH op = 0xC then .ok (.rndVxNn (fieldX op) (fieldNN op))
  else if fieldH op = 0xD then .ok (.drwVxVyN (fieldX op) (fieldY op) (fieldN op))
  else if fieldH op = 0xE then decodeFamilyE op
  else decodeFamilyF op

/-- The opcode of two bytes in memory order: big-endian, the first byte is op[15:8] (20_memory.md R53). -/
def opcodeOfBytes (hi lo : Byte) : Word := hi ++ lo

/-- The decoder on bytes: the first instruction and the bytes after it. -/
def decodeBytes : List Byte → Except DecodeReject (Instr × List Byte)
  | hi :: lo :: rest => (decode (opcodeOfBytes hi lo)).map fun i => (i, rest)
  | [_] => .error (.truncated 1)
  | [] => .error (.truncated 0)

/-- The word of a format with x, y and n: h, x, y, n from the most significant nibble down (30_encoding.md R71). -/
def wordXYN (h : Nat) (x y n : Fin 16) : Word := BitVec.ofNat 16 (h * 0x1000 + x.val * 0x100 + y.val * 0x10 + n.val)

/-- The word of a format with x and nn (30_encoding.md R71). -/
def wordXNN (h : Nat) (x : Fin 16) (nn : Byte) : Word := BitVec.ofNat 16 (h * 0x1000 + x.val * 0x100 + nn.toNat)

/-- The word of a format with nnn (30_encoding.md R71). -/
def wordNNN (h : Nat) (nnn : Addr12) : Word := BitVec.ofNat 16 (h * 0x1000 + nnn.toNat)

/-- The opcode of an instruction, row by row of 30_encoding.md R75. -/
def encode : Instr → Word
  | .cls => 0x00E0#16
  | .ret => 0x00EE#16
  | .jp nnn => wordNNN 0x1 nnn
  | .call nnn => wordNNN 0x2 nnn
  | .seVxNn x nn => wordXNN 0x3 x nn
  | .sneVxNn x nn => wordXNN 0x4 x nn
  | .seVxVy x y => wordXYN 0x5 x y 0x0
  | .ldVxNn x nn => wordXNN 0x6 x nn
  | .addVxNn x nn => wordXNN 0x7 x nn
  | .ldVxVy x y => wordXYN 0x8 x y 0x0
  | .orVxVy x y => wordXYN 0x8 x y 0x1
  | .andVxVy x y => wordXYN 0x8 x y 0x2
  | .xorVxVy x y => wordXYN 0x8 x y 0x3
  | .addVxVy x y => wordXYN 0x8 x y 0x4
  | .subVxVy x y => wordXYN 0x8 x y 0x5
  | .shrVxVy x y => wordXYN 0x8 x y 0x6
  | .subnVxVy x y => wordXYN 0x8 x y 0x7
  | .shlVxVy x y => wordXYN 0x8 x y 0xE
  | .sneVxVy x y => wordXYN 0x9 x y 0x0
  | .ldINnn nnn => wordNNN 0xA nnn
  | .jpV0Nnn nnn => wordNNN 0xB nnn
  | .rndVxNn x nn => wordXNN 0xC x nn
  | .drwVxVyN x y n => wordXYN 0xD x y n
  | .skpVx x => wordXNN 0xE x 0x9E#8
  | .sknpVx x => wordXNN 0xE x 0xA1#8
  | .ldVxDt x => wordXNN 0xF x 0x07#8
  | .ldVxK x => wordXNN 0xF x 0x0A#8
  | .ldDtVx x => wordXNN 0xF x 0x15#8
  | .ldStVx x => wordXNN 0xF x 0x18#8
  | .addIVx x => wordXNN 0xF x 0x1E#8
  | .ldFVx x => wordXNN 0xF x 0x29#8
  | .ldBVx x => wordXNN 0xF x 0x33#8
  | .ldMemVx x => wordXNN 0xF x 0x55#8
  | .ldVxMem x => wordXNN 0xF x 0x65#8
  | .clrfbN n => wordXYN 0x0 0x0 0xC n
  | .sysNnn nnn => wordNNN 0x0 nnn

/-- The high and the low byte of a word, in memory order (20_memory.md R53). -/
def bytesOfWord (op : Word) : Byte × Byte := (op.extractLsb' 8 8, op.extractLsb' 0 8)

/-- The bytes of an instruction in memory order. -/
def encodeBytes (i : Instr) : List Byte := [(bytesOfWord (encode i)).1, (bytesOfWord (encode i)).2]

/-- The opcode of the opcode table's bit numbering: one word, bit 0 least significant, every bit from `nbits` on 0. -/
def tableWord (nbits w : Nat) : Word := BitVec.ofNat 16 (w % 2 ^ nbits)

/-- What the decoder reads from the bytes of a row's word, laid out as memory holds them. -/
def decodeTableWord (nbits w : Nat) : Option Instr :=
  match decodeBytes [(bytesOfWord (tableWord nbits w)).1, (bytesOfWord (tableWord nbits w)).2] with
  | .ok (i, _) => some i
  | .error _ => none

end Sys2Proof
end

