-- ==== Sys2Proof/Config.lean ====
section
/-! DEFINITION. The fixed sizes of the block (00_scope.md R5) and the two quantities the source leaves open (00_scope.md R6). -/

namespace Sys2Proof

/-- The number of memory cells: addresses 0x000 to 0xFFF (20_memory.md R50). -/
abbrev Config.memSize : Nat := 0x1000

/-- The program load address and reset entry point (20_memory.md R52, 70_reset_and_hazards.md R291). -/
abbrev Config.loadAddress : Nat := 0x200

/-- The largest program load_program accepts: 3584 bytes (70_reset_and_hazards.md R293). -/
abbrev Config.maxProgram : Nat := Config.memSize - Config.loadAddress

/-- `P_RNG` (00_scope.md R6, 42_alu.md R170): the random byte of the k-th draw. It has no body, so nothing is known of its
values. DESIGN CHOICE (log entry 2): the draws are numbered by a counter in State. -/
opaque Config.randomByte : Nat → Byte

/-- `P_TICK_CADENCE` (00_scope.md R6, 60_exceptions.md R267): how often the host issues a tick. No rule reads it
(70_reset_and_hazards.md R311), and nothing in the model does (log entry 10). -/
opaque Config.tickCadence : Nat

end Sys2Proof
end

