-- ==== Sys2Proof/Machine/State.lean ====
section
/-! DEFINITION. The state of the block: every element of 10_state.md R20 to R34 as plain data, three fields of the model's own
(the started flag, the draw counter, the report stream), the reasons a step can stop, and the state after reset (R37). -/

namespace Sys2Proof.Machine

/-- The memory (10_state.md R20): the cells that hold something other than what an unlisted address reads as, by rising
address. -/
abbrev Memory := List Host.Cell

/-- What an unlisted cell holds: 0x00, the reset contents (20_memory.md R51, 10_state.md R37). -/
abbrev Memory.unlisted : Byte := 0x00#8

/-- The canonical form from address `from` on: addresses rise strictly, lie below 0x1000 (20_memory.md R50), and no entry
equals what an unlisted cell holds. -/
def Memory.wfFrom : Nat → Memory → Bool
  | _, [] => true
  | lowest, (a, b) :: m => decide (lowest ≤ a) && decide (a < Config.memSize) && b != Memory.unlisted && Memory.wfFrom (a + 1) m

/-- The canonical form of a memory: equal memories are equal lists. -/
def Memory.wf (m : Memory) : Bool := Memory.wfFrom 0 m

/-- The framebuffer storage FB[0..255] (10_state.md R30). -/
abbrev Framebuffer := Vector Byte 256

/-- The fault causes of 60_exceptions.md R250. Codes 5 to 7 of the 3-bit register are unused and have no constructor
(log entry 9). -/
inductive FaultCause where
  /-- code 0, NONE: no fault has been taken -/
  | noFault
  /-- code 1, MEM_BOUNDS -/
  | memBounds
  /-- code 2, STACK_OVERFLOW -/
  | stackOverflow
  /-- code 3, STACK_UNDERFLOW -/
  | stackUnderflow
  /-- code 4, KEY_RANGE -/
  | keyRange
deriving DecidableEq, Repr

/-- The events of the `report` output (60_exceptions.md R260). -/
inductive Report where
  /-- UNKNOWN_OPCODE, once for each execution of an UNKNOWN word -/
  | unknownOpcode (pc opcode : Word)
  /-- LOAD_REJECTED, by a load_program whose length check fails -/
  | loadRejected (length : Nat)
deriving DecidableEq, Repr

/-- The architectural state (10_state.md R20 to R34) and, last, the model's own three fields. -/
structure State where
  /-- memory, 4096 bytes (R20) -/
  mem : Memory
  /-- V0 to VF (R21, R22) -/
  v : Vector Byte 16
  /-- I (R24) -/
  idx : Word
  /-- PC (R25) -/
  pc : Word
  /-- STACK[0..15] (R26) -/
  stack : Vector Word 16
  /-- SP, the number of occupied entries, 0 to 16 and no other value (R27) -/
  sp : Fin 17
  /-- DT (R28) -/
  dt : Byte
  /-- ST (R29) -/
  st : Byte
  /-- FB[0..255] (R30) -/
  fb : Framebuffer
  /-- KEYS_CUR (R31) -/
  keysCur : Word
  /-- KEYS_PREV (R31) -/
  keysPrev : Word
  /-- HALTED (R32) -/
  halted : Bool
  /-- FAULT_CAUSE (R33) -/
  faultCause : FaultCause
  /-- FAULT_INFO (R33) -/
  faultInfo : Word
  /-- The model's own: whether reset or a successful load_program has run (R38; log entry 4). -/
  started : Bool
  /-- The model's own: how many random bytes have been drawn (42_alu.md R170; log entry 2). -/
  draws : Nat
  /-- The model's own: the events emitted so far, oldest first (60_exceptions.md R260; log entry 3). -/
  reports : List Report
deriving DecidableEq, Repr

/-- Why the machine stops without a next state. A fault of the BLOCK (60_exceptions.md R250) is no such stop: fault entry is
a next state (R252; log entry 1). -/
inductive Fault where
  /-- Raised by `step` alone, in a state that neither reset nor a successful load_program has put in order: there a tick has
  no step (10_state.md R38, 70_reset_and_hazards.md R297). Safe: the model proves nothing of such a tick. -/
  | beforeReset
deriving DecidableEq, Repr

/-- Why an instruction has no meaning. No arm of `exec` answers with it. -/
inductive Refusal where
  /-- Raised by an arm of `exec` whose instruction has no meaning yet; there is none. Safe: nothing is proved of it. -/
  | notModelled (mnemonic : String)
deriving DecidableEq, Repr

/-- The outcome of a tick or an instruction. -/
abbrev Result := Host.Outcome State Fault Refusal

/-- The state right after reset (10_state.md R37, 70_reset_and_hazards.md R290). The block's own elements are all at the
values R37 states; `started`, `draws` and `reports` are the model's own (log entries 2, 3 and 4). -/
def State.reset : State where
  mem := []
  v := Vector.replicate 16 0x00#8
  idx := 0x0000#16
  pc := 0x0200#16
  stack := Vector.replicate 16 0x0000#16
  sp := 0
  dt := 0x00#8
  st := 0x00#8
  fb := Vector.replicate 256 0x00#8
  keysCur := 0x0000#16
  keysPrev := 0x0000#16
  halted := false
  faultCause := .noFault
  faultInfo := 0x0000#16
  started := true
  draws := 0
  reports := []

end Sys2Proof.Machine
end

