-- ==== Sys2Proof/Machine/Ops.lean ====
section
/-! DEFINITION. The named operations over memory, registers, stack, timers and the key latch; raising a fault and taking it
(60_exceptions.md R252); and what every instruction is wrapped in (40_execution_cycle.md R105). -/

namespace Sys2Proof.Machine

/-! ### Raising a fault -/

/-- `raise Fault(cause, info)` (00_scope.md R14): what ends an instruction without committing any of its effects. -/
structure Raised where
  cause : FaultCause
  info : Word
deriving DecidableEq, Repr

/-- The 3-bit code of a fault cause (60_exceptions.md R250). -/
def FaultCause.code : FaultCause → BitVec 3
  | .noFault => 0
  | .memBounds => 1
  | .stackOverflow => 2
  | .stackUnderflow => 3
  | .keyRange => 4

/-! ### Memory -/

/-- The cell at an address: the listed byte, else what an unlisted cell holds. -/
def Memory.read : Memory → Nat → Byte
  | [], _ => Memory.unlisted
  | (a', b) :: m, a => if a' = a then b else Memory.read m a

/-- Writes one cell and keeps the canonical form: writing what an unlisted cell holds removes the entry. -/
def Memory.write : Memory → Nat → Byte → Memory
  | [], a, b => if b = Memory.unlisted then [] else [(a, b)]
  | (a', b') :: m, a, b =>
    if a < a' then (if b = Memory.unlisted then (a', b') :: m else (a, b) :: (a', b') :: m)
    else if a = a' then (if b = Memory.unlisted then m else (a, b) :: m)
    else (a', b') :: Memory.write m a b

/-- The fault of an access at an address past the bound: MEM_BOUNDS, info = the address mod 2^16 (20_memory.md R54). -/
def boundsFault (a : Nat) : Raised := { cause := .memBounds, info := BitVec.ofNat 16 a }

/-- `MemRead(addr, 1)` (20_memory.md R54). The address is an exact integer. -/
def memRead (m : Memory) (a : Nat) : Except Raised Byte :=
  if Config.memSize ≤ a then .error (boundsFault a) else .ok (Memory.read m a)

/-- `MemWrite(addr, 1, v)` (20_memory.md R54). -/
def memWrite (m : Memory) (a : Nat) (b : Byte) : Except Raised Memory :=
  if Config.memSize ≤ a then .error (boundsFault a) else .ok (Memory.write m a b)

/-- `count` byte reads at a, a+1, ... in increasing address order (60_exceptions.md R255). -/
def readBytes (m : Memory) : Nat → Nat → Except Raised (List Byte)
  | _, 0 => .ok []
  | a, count + 1 => do
    let b ← memRead m a
    let bs ← readBytes m (a + 1) count
    return b :: bs

/-- Byte writes at a, a+1, ... in increasing address order (60_exceptions.md R255). A fault commits none of them, for the
memory written so far is dropped with it (20_memory.md R55). -/
def writeBytes (m : Memory) : Nat → List Byte → Except Raised Memory
  | _, [] => .ok m
  | a, b :: bs => do
    let m' ← memWrite m a b
    writeBytes m' (a + 1) bs

/-! ### Registers -/

/-- `V[i]` (00_scope.md R13). -/
def State.getV (s : State) (r : Reg) : Byte := s.v[r.val]

/-- `V[i] <- b` (00_scope.md R13). No register is hardwired (10_state.md R21). -/
def State.setV (s : State) (r : Reg) (b : Byte) : State := { s with v := s.v.set r.val b }

/-- The registers Vk, Vk+1, ... loaded with the bytes of a list, in increasing order (43_index_memory.md R192). -/
def loadRegs (v : Vector Byte 16) : Nat → List Byte → Vector Byte 16
  | _, [] => v
  | k, b :: bs => loadRegs (v.setIfInBounds k b) (k + 1) bs

/-- Puts a value into I (10_state.md R24). -/
def State.setIdx (s : State) (a : Word) : State := { s with idx := a }

/-- `PC <- target`, any 16-bit value, not checked (41_control_flow.md R120). -/
def State.jump (s : State) (target : Word) : State := { s with pc := target }

/-- PC advanced by one instruction, modulo 2^16 (40_execution_cycle.md R103). -/
def State.advance (s : State) : State := { s with pc := s.pc + 2 }

/-- "Skip next instruction" when the condition holds (41_control_flow.md R121). -/
def State.skipIf (s : State) (condition : Bool) : State := if condition then s.advance else s

/-! ### The call stack -/

/-- Pushes a return address: STACK[SP] <- value, SP <- SP + 1; a full stack raises STACK_OVERFLOW with the call target
(41_control_flow.md R125). -/
def pushReturn (s : State) (returnAddress target : Word) : Except Raised State :=
  if h : s.sp.val < 16 then
    .ok { s with stack := s.stack.set s.sp.val returnAddress, sp := ⟨s.sp.val + 1, Nat.succ_lt_succ h⟩ }
  else .error { cause := .stackOverflow, info := target }

/-- Pops a return address: SP <- SP - 1, then STACK[SP]; an empty stack raises STACK_UNDERFLOW. The popped entry is not
cleared (41_control_flow.md R123). -/
def popReturn (s : State) : Except Raised (Word × State) :=
  if h : s.sp.val = 0 then .error { cause := .stackUnderflow, info := 0x0000#16 }
  else .ok (s.stack[s.sp.val - 1], { s with sp := ⟨s.sp.val - 1, by omega⟩ })

/-! ### Timers, the key latch and reports -/

/-- A timer's once-per-tick decrement; it saturates at 0 (60_exceptions.md R265). -/
def countDown (timer : Byte) : Byte := if timer = 0x00#8 then 0x00#8 else timer - 1

/-- The timer decrement at the start of a tick (40_execution_cycle.md R100, 60_exceptions.md R265). -/
def State.decrementTimers (s : State) : State := { s with dt := countDown s.dt, st := countDown s.st }

/-- The key-mask update at the end of an instruction: KEYS_PREV <- KEYS_CUR (40_execution_cycle.md R106). -/
def State.latchKeys (s : State) : State := { s with keysPrev := s.keysCur }

/-- `Report(kind, fields)`: one event on the report output (00_scope.md R14, 60_exceptions.md R260). -/
def State.report (s : State) (event : Report) : State := { s with reports := s.reports ++ [event] }

/-- `Draw8()`: the next random byte (00_scope.md R14). A free value: `Config.randomByte` has no body (log entry 2). -/
def State.nextDraw (s : State) : Byte := Config.randomByte s.draws

/-- The draw is used up. -/
def State.countDraw (s : State) : State := { s with draws := s.draws + 1 }

/-! ### Taking a fault, and the wrapping of every instruction -/

/-- Fault entry (60_exceptions.md R252), in the state as it was when ExecuteOne began: every write of the instruction is
discarded and PC is pc0 already. The fault register keeps the first fault; the timer decrement of the tick stays; KEYS_PREV is
not updated; no report is emitted. There is no return from a fault (R254): reset and load_program clear it. -/
def State.enterFault (s : State) (f : Raised) : State :=
  if s.faultCause = .noFault then { s with faultCause := f.cause, faultInfo := f.info, halted := true }
  else { s with halted := true }

/-- The part of ExecuteOne that surrounds an instruction's own effect (40_execution_cycle.md R105): from the state when
ExecuteOne began, PC is advanced, the effect runs, and KEYS_PREV is updated; a fault raised by the effect discards every write
and enters the fault state. -/
def runInstruction (effect : State → Except Raised State) (s : State) : Result :=
  match effect s.advance with
  | .ok t => .next t.latchKeys
  | .error f => .next (s.enterFault f)

/-! ### Fetch -/

/-- The instruction fetch (40_execution_cycle.md R102): the byte at PC, then the byte at PC + 1 as an exact integer;
big-endian (20_memory.md R53), at any PC, even or odd (R56). -/
def fetch (s : State) : Except Raised Word := do
  let hi ← memRead s.mem s.pc.toNat
  let lo ← memRead s.mem (s.pc.toNat + 1)
  return opcodeOfBytes hi lo

end Sys2Proof.Machine
end

