-- ==== Sys2Proof/Machine/Operands.lean ====
section
/-! DEFINITION. The operand forms: immediates and register values widened to 16 bits, the data addressing mode I + k, the
decimal digits of a byte, key numbers, and a sprite's rows. Every value is unsigned (00_scope.md R12). -/

namespace Sys2Proof.Machine

/-- `zext_16(nnn)` (30_encoding.md R72). -/
def zextAddr (nnn : Addr12) : Word := nnn.setWidth 16

/-- `zext_16` of a byte (00_scope.md R12). -/
def zextByte (b : Byte) : Word := b.setWidth 16

/-- The one data addressing mode: the exact integer I + k (43_index_memory.md R180, 20_memory.md R54). -/
def dataAddress (s : State) (k : Nat) : Nat := s.idx.toNat + k

/-- The values of V0 to Vx, in order (43_index_memory.md R190). -/
def regsUpTo (s : State) (x : Reg) : List Byte := s.v.toList.take (x.val + 1)

/-- The decimal digits of a byte: hundreds, tens, units (43_index_memory.md R187). -/
def decimalDigits (b : Byte) : List Byte :=
  [BitVec.ofNat 8 (b.toNat / 100), BitVec.ofNat 8 (b.toNat / 10 % 10), BitVec.ofNat 8 (b.toNat % 10)]

/-- The target of Bnnn: V0 + nnn, not reduced to 12 bits (41_control_flow.md R140). -/
def jumpV0Target (s : State) (nnn : Addr12) : Word := zextByte (s.getV v0) + zextAddr nnn

/-- The address Fx29 computes: Vx * 5, of the whole byte (43_index_memory.md R185). -/
def fontAddress (b : Byte) : Word := zextByte b * 5

/-- The key a register's value names, a value above 0x0F raising KEY_RANGE (46_keypad.md R231). -/
def keyIndex (b : Byte) : Except Raised (Fin 16) :=
  if h : b.toNat < 16 then .ok ⟨b.toNat, h⟩ else .error { cause := .keyRange, info := zextByte b }

/-- Whether key k is currently pressed: bit k of KEYS_CUR (46_keypad.md R230). -/
def keyPressed (s : State) (k : Fin 16) : Bool := s.keysCur.getLsbD k.val

/-- `lowest_set_bit(m)`: the least i in 0..15 with bit i of m set (00_scope.md R14). It is used for m != 0 only. -/
def lowestSetBit (m : Word) : Nat := ((List.range 16).find? fun i => m.getLsbD i).getD 0

/-- Column c of a sprite row, c = 0 leftmost: bit 7 - c (45_display.md R211). -/
def spriteBit (row : Byte) (c : Nat) : Bool := row.getLsbD (7 - c)

end Sys2Proof.Machine
end

