-- ==== Sys2Proof/Machine/Alu.lean ====
section
/-! DEFINITION. Register loads and the 8-bit ALU (42_alu.md). The flag instructions write in the order of R151: result, then
flag, for ADD, SUB and SUBN; flag, then the shift of what Vx then holds, for SHR and SHL. -/

namespace Sys2Proof.Machine

/-- LD Vx, nn (42_alu.md R152). -/
def execLdVxNn (x : Reg) (nn : Byte) (s : State) : Result :=
  runInstruction (fun t => .ok (t.setV x nn)) s

/-- ADD Vx, nn (42_alu.md R153): no flag. -/
def execAddVxNn (x : Reg) (nn : Byte) (s : State) : Result :=
  runInstruction (fun t => .ok (t.setV x (aluAdd (t.getV x) nn))) s

/-- LD Vx, Vy (42_alu.md R155). -/
def execLdVxVy (x y : Reg) (s : State) : Result :=
  runInstruction (fun t => .ok (t.setV x (t.getV y))) s

/-- OR Vx, Vy (42_alu.md R156): VF is not reset. -/
def execOrVxVy (x y : Reg) (s : State) : Result :=
  runInstruction (fun t => .ok (t.setV x (t.getV x ||| t.getV y))) s

/-- AND Vx, Vy (42_alu.md R157): VF is not reset. -/
def execAndVxVy (x y : Reg) (s : State) : Result :=
  runInstruction (fun t => .ok (t.setV x (t.getV x &&& t.getV y))) s

/-- XOR Vx, Vy (42_alu.md R158): VF is not reset. -/
def execXorVxVy (x y : Reg) (s : State) : Result :=
  runInstruction (fun t => .ok (t.setV x (t.getV x ^^^ t.getV y))) s

/-- Vx <- result, then VF <- flag (42_alu.md R151). -/
def State.setThenFlag (s : State) (x : Reg) (result flag : Byte) : State := (s.setV x result).setV vF flag

/-- ADD Vx, Vy (42_alu.md R159): the carry of the operands as read. -/
def execAddVxVy (x y : Reg) (s : State) : Result :=
  runInstruction (fun t =>
    .ok (t.setThenFlag x (aluAdd (t.getV x) (t.getV y)) (carryFlag (t.getV x) (t.getV y)))) s

/-- SUB Vx, Vy (42_alu.md R160): Vx - Vy. -/
def execSubVxVy (x y : Reg) (s : State) : Result :=
  runInstruction (fun t =>
    .ok (t.setThenFlag x (aluSub (t.getV x) (t.getV y)) (noBorrowFlag (t.getV x) (t.getV y)))) s

/-- SHR Vx, Vy (42_alu.md R161): VF <- bit 0 of Vx, then Vx <- Vx >> 1, reading Vx again. Vy is not read. -/
def execShrVxVy (x _y : Reg) (s : State) : Result :=
  runInstruction (fun t =>
    let flagged := t.setV vF (shrFlag (t.getV x))
    .ok (flagged.setV x (aluShr (flagged.getV x)))) s

/-- SUBN Vx, Vy (42_alu.md R162): Vy - Vx. -/
def execSubnVxVy (x y : Reg) (s : State) : Result :=
  runInstruction (fun t =>
    .ok (t.setThenFlag x (aluSub (t.getV y) (t.getV x)) (noBorrowFlag (t.getV y) (t.getV x)))) s

/-- SHL Vx, Vy (42_alu.md R163): VF <- bit 7 of Vx, then Vx <- Vx << 1, reading Vx again. Vy is not read. -/
def execShlVxVy (x _y : Reg) (s : State) : Result :=
  runInstruction (fun t =>
    let flagged := t.setV vF (shlFlag (t.getV x))
    .ok (flagged.setV x (aluShl (flagged.getV x)))) s

/-- RND Vx, nn with a given draw r: Vx <- r AND nn (42_alu.md R170). -/
def randomMasked (r : Byte) (x : Reg) (nn : Byte) (t : State) : State := t.countDraw.setV x (r &&& nn)

/-- RND Vx, nn (42_alu.md R170): r is the next draw, a free value (log entry 2). -/
def execRndVxNn (x : Reg) (nn : Byte) (s : State) : Result :=
  runInstruction (fun t => .ok (randomMasked t.nextDraw x nn t)) s

end Sys2Proof.Machine
end

