-- ==== Sys2Proof/Machine/ControlFlow.lean ====
section
/-! DEFINITION. Control flow (41_control_flow.md): RET, JP, CALL, the register skips and JP V0. PC is already advanced when an
effect runs (R120, R121). -/

namespace Sys2Proof.Machine

/-- RET (41_control_flow.md R123). -/
def execRet (s : State) : Result :=
  runInstruction (fun t => do
    let (target, t') ← popReturn t
    return t'.jump target) s

/-- JP nnn (41_control_flow.md R124). -/
def execJp (nnn : Addr12) (s : State) : Result :=
  runInstruction (fun t => .ok (t.jump (zextAddr nnn))) s

/-- CALL nnn (41_control_flow.md R125): the advanced PC is pushed. -/
def execCall (nnn : Addr12) (s : State) : Result :=
  runInstruction (fun t => do
    let t' ← pushReturn t t.pc (zextAddr nnn)
    return t'.jump (zextAddr nnn)) s

/-- SE Vx, nn (41_control_flow.md R130). -/
def execSeVxNn (x : Reg) (nn : Byte) (s : State) : Result :=
  runInstruction (fun t => .ok (t.skipIf (t.getV x == nn))) s

/-- SNE Vx, nn (41_control_flow.md R131). -/
def execSneVxNn (x : Reg) (nn : Byte) (s : State) : Result :=
  runInstruction (fun t => .ok (t.skipIf (t.getV x != nn))) s

/-- SE Vx, Vy (41_control_flow.md R132). -/
def execSeVxVy (x y : Reg) (s : State) : Result :=
  runInstruction (fun t => .ok (t.skipIf (t.getV x == t.getV y))) s

/-- SNE Vx, Vy (41_control_flow.md R133). -/
def execSneVxVy (x y : Reg) (s : State) : Result :=
  runInstruction (fun t => .ok (t.skipIf (t.getV x != t.getV y))) s

/-- JP V0, nnn (41_control_flow.md R140). -/
def execJpV0Nnn (nnn : Addr12) (s : State) : Result :=
  runInstruction (fun t => .ok (t.jump (jumpV0Target t nnn))) s

end Sys2Proof.Machine
end

