-- ==== Sys2Proof/Machine/Display.lean ====
section
/-! DEFINITION. The framebuffer controller and its three instructions (45_display.md): pixel addressing, clearing, and the XOR
sprite draw with its collision flag. -/

namespace Sys2Proof.Machine

/-! ### Pixel addressing (45_display.md R210) -/

/-- ByteIndex(px, py) = py * 8 + px / 8. -/
def byteIndex (px : Fin 64) (py : Fin 32) : Fin 256 := ⟨py.val * 8 + px.val / 8, by omega⟩

/-- BitIndex(px) = 7 - (px mod 8): bit 7 is the leftmost pixel of a byte. -/
def bitIndex (px : Fin 64) : Nat := 7 - px.val % 8

/-- Pixel(px, py): whether it is on. -/
def pixel (fb : Framebuffer) (px : Fin 64) (py : Fin 32) : Bool :=
  (fb[(byteIndex px py).val]).getLsbD (bitIndex px)

/-- Pixel(px, py) <- Pixel(px, py) XOR 1. -/
def togglePixel (fb : Framebuffer) (px : Fin 64) (py : Fin 32) : Framebuffer :=
  fb.set (byteIndex px py).val (fb[(byteIndex px py).val] ^^^ (0x01#8 <<< bitIndex px))

/-! ### Clearing -/

/-- FB[k] <- 0x00 for every k (45_display.md R212). -/
def clearedFramebuffer : Framebuffer := Vector.replicate 256 0x00#8

/-- FB[k] <- 0x00 for k in 0 .. count-1 (45_display.md R214). -/
def clearFirst (fb : Framebuffer) : Nat → Framebuffer
  | 0 => fb
  | count + 1 => (clearFirst fb count).setIfInBounds count 0x00#8

/-! ### The sprite draw (45_display.md R220 to R223) -/

/-- The framebuffer so far, and whether a set pixel has been turned off so far. -/
structure DrawState where
  fb : Framebuffer
  collision : Bool
deriving DecidableEq, Repr

/-- The column of a sprite's pixel: (cx + c) mod 64 (45_display.md R222). -/
def wrapColumn (cx c : Nat) : Fin 64 := Fin.ofNat 64 (cx + c)

/-- The row of a sprite's pixel: (cy + r) mod 32 (45_display.md R222). -/
def wrapRow (cy r : Nat) : Fin 32 := Fin.ofNat 32 (cy + r)

/-- One set bit of a sprite: a set pixel that is turned off makes a collision, then the pixel is toggled. -/
def drawPixel (d : DrawState) (px : Fin 64) (py : Fin 32) : DrawState :=
  { fb := togglePixel d.fb px py, collision := d.collision || pixel d.fb px py }

/-- The columns c, c+1, ... (as many as the third argument) of one sprite row, left to right. -/
def drawColumns (row : Byte) (cx : Nat) (py : Fin 32) : Nat → Nat → DrawState → DrawState
  | _, 0, d => d
  | c, count + 1, d =>
    drawColumns row cx py (c + 1) count (if spriteBit row c then drawPixel d (wrapColumn cx c) py else d)

/-- The rows r, r+1, ... of a sprite, top to bottom. -/
def drawRows (cx cy : Nat) : Nat → List Byte → DrawState → DrawState
  | _, [], d => d
  | r, row :: rows, d => drawRows cx cy (r + 1) rows (drawColumns row cx (wrapRow cy r) 0 8 d)

/-- A sprite drawn with origin (cx, cy); the collision flag is reset at the start (45_display.md R220). -/
def drawSprite (fb : Framebuffer) (cx cy : Nat) (rows : List Byte) : DrawState :=
  drawRows cx cy 0 rows { fb := fb, collision := false }

/-! ### The instructions -/

/-- CLS (45_display.md R212). -/
def execCls (s : State) : Result :=
  runInstruction (fun t => .ok { t with fb := clearedFramebuffer }) s

/-- CLRFB n (45_display.md R214): clears bytes, does not scroll. -/
def execClrfbN (n : Count) (s : State) : Result :=
  runInstruction (fun t => .ok { t with fb := clearFirst t.fb n.val }) s

/-- DRW Vx, Vy, n (45_display.md R220): the n rows are read at I before anything is written, and the origin (Vx, Vy) is read
before VF receives the collision flag (R221, R224). -/
def execDrwVxVyN (x y : Reg) (n : Count) (s : State) : Result :=
  runInstruction (fun t => do
    let rows ← readBytes t.mem (dataAddress t 0) n.val
    let drawn := drawSprite t.fb (t.getV x).toNat (t.getV y).toNat rows
    return { t with fb := drawn.fb }.setV vF (flagByte drawn.collision)) s

end Sys2Proof.Machine
end

