-- ==== Sys2Proof/Machine/IndexMemory.lean ====
section
/-! DEFINITION. The index register and memory instructions (43_index_memory.md). None changes I as a side effect (R180). -/

namespace Sys2Proof.Machine

/-- LD I, nnn (43_index_memory.md R181). -/
def execLdINnn (nnn : Addr12) (s : State) : Result :=
  runInstruction (fun t => .ok (t.setIdx (zextAddr nnn))) s

/-- ADD I, Vx (43_index_memory.md R183): modulo 2^16, no flag. -/
def execAddIVx (x : Reg) (s : State) : Result :=
  runInstruction (fun t => .ok (t.setIdx (t.idx + zextByte (t.getV x)))) s

/-- LD F, Vx (43_index_memory.md R185). -/
def execLdFVx (x : Reg) (s : State) : Result :=
  runInstruction (fun t => .ok (t.setIdx (fontAddress (t.getV x)))) s

/-- Stores bytes at I, I + 1, ... (43_index_memory.md R180). -/
def storeAtIndex (t : State) (bytes : List Byte) : Except Raised State := do
  let m ← writeBytes t.mem (dataAddress t 0) bytes
  return { t with mem := m }

/-- LD B, Vx (43_index_memory.md R187). -/
def execLdBVx (x : Reg) (s : State) : Result :=
  runInstruction (fun t => storeAtIndex t (decimalDigits (t.getV x))) s

/-- LD [I], Vx (43_index_memory.md R190). -/
def execLdMemVx (x : Reg) (s : State) : Result :=
  runInstruction (fun t => storeAtIndex t (regsUpTo t x)) s

/-- LD Vx, [I] (43_index_memory.md R192). -/
def execLdVxMem (x : Reg) (s : State) : Result :=
  runInstruction (fun t => do
    let bytes ← readBytes t.mem (dataAddress t 0) (x.val + 1)
    return { t with v := loadRegs t.v 0 bytes }) s

end Sys2Proof.Machine
end

