-- ==== Sys2Proof/Machine/Keypad.lean ====
section
/-! DEFINITION. The keypad instructions (46_keypad.md). -/

namespace Sys2Proof.Machine

/-- SKP Vx (46_keypad.md R232). -/
def execSkpVx (x : Reg) (s : State) : Result :=
  runInstruction (fun t => do
    let k ← keyIndex (t.getV x)
    return t.skipIf (keyPressed t k)) s

/-- SKNP Vx (46_keypad.md R233). -/
def execSknpVx (x : Reg) (s : State) : Result :=
  runInstruction (fun t => do
    let k ← keyIndex (t.getV x)
    return t.skipIf (!keyPressed t k)) s

/-- Whether Fx0A takes a key: the mask has changed, as a 16-bit value, and is not zero (46_keypad.md R240, R241). -/
def keyTransition (s : State) : Bool := s.keysCur != s.keysPrev && s.keysCur != 0x0000#16

/-- LD Vx, K (46_keypad.md R240): on a transition, the lowest set bit of KEYS_CUR; else PC is set back to the instruction's
own address pc0, which is PC as the instruction began. -/
def execLdVxK (x : Reg) (s : State) : Result :=
  runInstruction (fun t =>
    .ok (if keyTransition t then t.setV x (BitVec.ofNat 8 (lowestSetBit t.keysCur)) else t.jump s.pc)) s

end Sys2Proof.Machine
end

