-- ==== Sys2Proof/Machine/System.lean ====
section
/-! DEFINITION. The two catch-all encodings (40_execution_cycle.md R107, R108). -/

namespace Sys2Proof.Machine

/-- SYS nnn (40_execution_cycle.md R107): nothing but what every instruction does; no report. -/
def execSysNnn (_nnn : Addr12) (s : State) : Result :=
  runInstruction (fun t => .ok t) s

/-- An UNKNOWN word (40_execution_cycle.md R108): one report, with the word's own address, and a no-op advance. It is no
instruction of the table, so `exec` has no arm for it: the step runs it where the decoder rejects a word. -/
def execUnknown (op : Word) (s : State) : Result :=
  runInstruction (fun t => .ok (t.report (.unknownOpcode s.pc op))) s

end Sys2Proof.Machine
end

