-- ==== Sys2Proof/Machine/Timers.lean ====
section
/-! DEFINITION. The timer instructions (44_timers.md). They read and write the timers as the tick's decrement left them
(R200). -/

namespace Sys2Proof.Machine

/-- LD Vx, DT (44_timers.md R201). -/
def execLdVxDt (x : Reg) (s : State) : Result :=
  runInstruction (fun t => .ok (t.setV x t.dt)) s

/-- LD DT, Vx (44_timers.md R202). -/
def execLdDtVx (x : Reg) (s : State) : Result :=
  runInstruction (fun t => .ok { t with dt := t.getV x }) s

/-- LD ST, Vx (44_timers.md R203). -/
def execLdStVx (x : Reg) (s : State) : Result :=
  runInstruction (fun t => .ok { t with st := t.getV x }) s

end Sys2Proof.Machine
end

