-- ==== Sys2Proof/Machine/Dispatch.lean ====
section
/-! DEFINITION. The dispatch: the meaning of each instruction, in the order of 30_encoding.md R75. `exec i s` is the whole of
ExecuteOne but the fetch (40_execution_cycle.md R105): `s` is the state as ExecuteOne begins, PC at the instruction. -/

namespace Sys2Proof.Machine

def exec (i : Instr) (s : State) : Host.Outcome State Fault Refusal :=
  match i with
  | .cls => Sys2Proof.Machine.execCls s
  | .ret => Sys2Proof.Machine.execRet s
  | .jp nnn => Sys2Proof.Machine.execJp nnn s
  | .call nnn => Sys2Proof.Machine.execCall nnn s
  | .seVxNn x nn => Sys2Proof.Machine.execSeVxNn x nn s
  | .sneVxNn x nn => Sys2Proof.Machine.execSneVxNn x nn s
  | .seVxVy x y => Sys2Proof.Machine.execSeVxVy x y s
  | .ldVxNn x nn => Sys2Proof.Machine.execLdVxNn x nn s
  | .addVxNn x nn => Sys2Proof.Machine.execAddVxNn x nn s
  | .ldVxVy x y => Sys2Proof.Machine.execLdVxVy x y s
  | .orVxVy x y => Sys2Proof.Machine.execOrVxVy x y s
  | .andVxVy x y => Sys2Proof.Machine.execAndVxVy x y s
  | .xorVxVy x y => Sys2Proof.Machine.execXorVxVy x y s
  | .addVxVy x y => Sys2Proof.Machine.execAddVxVy x y s
  | .subVxVy x y => Sys2Proof.Machine.execSubVxVy x y s
  | .shrVxVy x y => Sys2Proof.Machine.execShrVxVy x y s
  | .subnVxVy x y => Sys2Proof.Machine.execSubnVxVy x y s
  | .shlVxVy x y => Sys2Proof.Machine.execShlVxVy x y s
  | .sneVxVy x y => Sys2Proof.Machine.execSneVxVy x y s
  | .ldINnn nnn => Sys2Proof.Machine.execLdINnn nnn s
  | .jpV0Nnn nnn => Sys2Proof.Machine.execJpV0Nnn nnn s
  | .rndVxNn x nn => Sys2Proof.Machine.execRndVxNn x nn s
  | .drwVxVyN x y n => Sys2Proof.Machine.execDrwVxVyN x y n s
  | .skpVx x => Sys2Proof.Machine.execSkpVx x s
  | .sknpVx x => Sys2Proof.Machine.execSknpVx x s
  | .ldVxDt x => Sys2Proof.Machine.execLdVxDt x s
  | .ldVxK x => Sys2Proof.Machine.execLdVxK x s
  | .ldDtVx x => Sys2Proof.Machine.execLdDtVx x s
  | .ldStVx x => Sys2Proof.Machine.execLdStVx x s
  | .addIVx x => Sys2Proof.Machine.execAddIVx x s
  | .ldFVx x => Sys2Proof.Machine.execLdFVx x s
  | .ldBVx x => Sys2Proof.Machine.execLdBVx x s
  | .ldMemVx x => Sys2Proof.Machine.execLdMemVx x s
  | .ldVxMem x => Sys2Proof.Machine.execLdVxMem x s
  | .clrfbN n => Sys2Proof.Machine.execClrfbN n s
  | .sysNnn nnn => Sys2Proof.Machine.execSysNnn nnn s

end Sys2Proof.Machine
end

