-- ==== Sys2Proof/Machine/Tick.lean ====
section
/-! DEFINITION. The tick (40_execution_cycle.md): the timer decrement, then one fetch-decode-execute step. -/

namespace Sys2Proof.Machine

/-- ExecuteOne (40_execution_cycle.md R105): fetch, decode, execute. A fault of the fetch is taken like any other; a word the
decoder rejects is UNKNOWN (R108). -/
def executeOne (s : State) : Result :=
  match fetch s with
  | .error f => .next (s.enterFault f)
  | .ok op =>
    match decode op with
    | .ok i => exec i s
    | .error _ => execUnknown op s

/-- `tick()` (40_execution_cycle.md R100). Before the first reset or load it has no step (10_state.md R38); while HALTED it
changes nothing (R101); else the timers are decremented and then one instruction runs. -/
def tick (s : State) : Result :=
  if s.started = false then .fault .beforeReset
  else if s.halted then .next s
  else executeOne s.decrementTimers

/-- A state like `s` whose next tick fetches and runs the word `op`: the two bytes at PC hold it, the block is started and not
halted, and a PC that no fetch can use (0x0FFF or above) is the load address instead. It stands for the host's load of a program
(70_reset_and_hazards.md R293; log entry 6). -/
def placeWord (s : State) (op : Word) : State :=
  let pc : Word := if s.pc.toNat + 1 < Config.memSize then s.pc else BitVec.ofNat 16 Config.loadAddress
  { s with
    mem := Memory.write (Memory.write s.mem pc.toNat (bytesOfWord op).1) (pc.toNat + 1) (bytesOfWord op).2
    pc := pc
    halted := false
    started := true }

end Sys2Proof.Machine
end

