-- ==== Sys2Proof/Machine/Step.lean ====
section
/-! DEFINITION. The step of the machine: one tick. -/

namespace Sys2Proof.Machine

/-- One step is one `tick()` (40_execution_cycle.md R100). -/
def step (s : State) : Host.Outcome State Fault Refusal := tick s

/-- `s` with an instruction placed where the next step fetches (log entry 6). -/
def State.withFetchWord (s : State) (nbits w : Nat) : State := placeWord s (tableWord nbits w)

end Sys2Proof.Machine
end

