-- ==== Sys2Proof/Machine/HostInterface.lean ====
section
/-! DEFINITION. The host's side of the block (00_scope.md R7, R8; 60_exceptions.md R270 to R278; 70_reset_and_hazards.md R290,
R293): the operations, each one indivisible step between ticks, and the outputs. -/

namespace Sys2Proof.Machine

/-! ### Operations -/

/-- `reset()` (70_reset_and_hazards.md R290): every element of the block at its reset value. The model's own draw counter and
report stream go on: a reset emits no report, takes none back, and repeats no random byte (log entries 2 and 3). -/
def resetOp (s : State) : State := { State.reset with draws := s.draws, reports := s.reports }

/-- Bytes copied to consecutive cells (70_reset_and_hazards.md R293). -/
def copyBytes (m : Memory) : Nat → List Byte → Memory
  | _, [] => m
  | a, b :: bs => copyBytes (Memory.write m a b) (a + 1) bs

/-- `load_program(bytes)` (70_reset_and_hazards.md R293): a length of 0 or above 3584 is rejected with a report and changes
nothing; else reset, then the copy to 0x200. -/
def loadProgram (bytes : List Byte) (s : State) : State :=
  if bytes.length = 0 ∨ Config.maxProgram < bytes.length then s.report (.loadRejected bytes.length)
  else { resetOp s with mem := copyBytes (resetOp s).mem Config.loadAddress bytes }

/-- `halt()` (60_exceptions.md R270). -/
def haltOp (s : State) : State := { s with halted := true }

/-- `set_key_mask(mask)` (60_exceptions.md R273). -/
def setKeyMask (mask : Word) (s : State) : State := { s with keysPrev := s.keysCur, keysCur := mask }

/-- `key_down(bits)` (60_exceptions.md R274). -/
def keyDown (bits : Word) (s : State) : State := { s with keysCur := s.keysCur ||| bits }

/-- `key_up(bits)` (60_exceptions.md R275). -/
def keyUp (bits : Word) (s : State) : State := { s with keysCur := s.keysCur &&& ~~~bits }

/-- The operations of 00_scope.md R7. -/
inductive Operation where
  | tick
  | reset
  | loadProgram (bytes : List Byte)
  | halt
  | setKeyMask (mask : Word)
  | keyDown (bits : Word)
  | keyUp (bits : Word)
deriving DecidableEq, Repr

/-- One operation, as one indivisible step (00_scope.md R11). -/
def perform (operation : Operation) (s : State) : Result :=
  match operation with
  | .tick => step s
  | .reset => .next (resetOp s)
  | .loadProgram bytes => .next (loadProgram bytes s)
  | .halt => .next (haltOp s)
  | .setKeyMask mask => .next (setKeyMask mask s)
  | .keyDown bits => .next (keyDown bits s)
  | .keyUp bits => .next (keyUp bits s)

/-- Operations in the order the host issues them (00_scope.md R11), stopping at the first that has no step. -/
def performAll : List Operation → State → Result
  | [], s => .next s
  | operation :: rest, s =>
    match perform operation s with
    | .next t => performAll rest t
    | .fault f => .fault f
    | .refused r => .refused r

/-! ### Outputs: functions of the state, so a read changes nothing (60_exceptions.md R278) -/

/-- `fb_read(k)`, k in 0..255 (60_exceptions.md R276). -/
def fbRead (k : Fin 256) (s : State) : Byte := s.fb[k.val]

/-- `sound_timer` (60_exceptions.md R277). -/
def soundTimerOut (s : State) : Byte := s.st

/-- `audio_on`: 1 exactly when ST != 0 (60_exceptions.md R277). -/
def audioOnOut (s : State) : Bool := s.st != 0x00#8

/-- `halted` (60_exceptions.md R277). -/
def haltedOut (s : State) : Bool := s.halted

/-- `fault`: the cause code and the 16-bit info (60_exceptions.md R256). -/
def faultOut (s : State) : BitVec 3 × Word := (s.faultCause.code, s.faultInfo)

/-- `report`: the events so far, oldest first (60_exceptions.md R260). -/
def reportOut (s : State) : List Report := s.reports

end Sys2Proof.Machine
end

