-- ==== Sys2Proof/Safety.lean ====
section
/-! DEFINITION. What statements are made in: what an instruction leaves unchanged, the invariant of the machine, and what a run
without a fault is (60_exceptions.md R257). -/

namespace Sys2Proof.Machine

/-! ### Frames -/

/-- What an instruction may write: the rest of the state is its frame. -/
structure Writes where
  /-- destination registers, VF among them where the spec names it as a flag -/
  regs : List Reg := []
  /-- whether I may change -/
  index : Bool := false
  /-- whether STACK and SP may change -/
  callStack : Bool := false
  /-- whether DT may change -/
  delayTimer : Bool := false
  /-- whether ST may change -/
  soundTimer : Bool := false
  /-- whether the framebuffer may change -/
  framebuffer : Bool := false
  /-- the addresses stored to -/
  memory : List Nat := []
  /-- whether a random byte may be drawn -/
  draw : Bool := false
  /-- whether a report may be emitted -/
  report : Bool := false

/-- `t` is `s` after an instruction that completed and wrote at most what `w` lists: everything else is as before, but for
PC, of which this says nothing, and KEYS_PREV, which every completed instruction sets to KEYS_CUR (40_execution_cycle.md
R106). Memory is compared byte by byte. -/
structure WritesAtMost (w : Writes) (s t : State) : Prop where
  regs : ∀ r, r ∉ w.regs → t.getV r = s.getV r
  index : w.index = false → t.idx = s.idx
  callStack : w.callStack = false → t.stack = s.stack ∧ t.sp = s.sp
  delayTimer : w.delayTimer = false → t.dt = s.dt
  soundTimer : w.soundTimer = false → t.st = s.st
  framebuffer : w.framebuffer = false → t.fb = s.fb
  memory : ∀ a, a ∉ w.memory → t.mem.read a = s.mem.read a
  draw : w.draw = false → t.draws = s.draws
  report : w.report = false → t.reports = s.reports
  keysCur : t.keysCur = s.keysCur
  keysPrev : t.keysPrev = s.keysCur
  halted : t.halted = s.halted
  faultCause : t.faultCause = s.faultCause
  faultInfo : t.faultInfo = s.faultInfo
  started : t.started = s.started

/-! ### The sprite of a draw -/

/-- Whether DRW Vx, Vy, n in state `s` has a set sprite bit on pixel (px, py) (45_display.md R220): row r of the sprite is the
byte at I + r, its column c is bit 7 - c (R211), and the two land at ((Vx + c) mod 64, (Vy + r) mod 32) (R221, R222). -/
def spriteTouches (s : State) (x y : Reg) (n : Count) (px : Fin 64) (py : Fin 32) : Prop :=
  ∃ r c : Nat, r < n.val ∧ c < 8 ∧ (s.mem.read (s.idx.toNat + r)).getLsbD (7 - c) = true ∧
    px.val = ((s.getV x).toNat + c) % 64 ∧ py.val = ((s.getV y).toNat + r) % 32

/-! ### Faults -/

/-- The fault of an access that runs past the memory: MEM_BOUNDS with the first address outside (60_exceptions.md R255). It
is I where I itself lies outside, else 0x1000. -/
def pastMemory (s : State) : Raised :=
  { cause := .memBounds, info := if Config.memSize ≤ s.idx.toNat then s.idx else 0x1000#16 }

/-- The table of 60_exceptions.md R250 and R251, read by instruction: the fault an instruction raises in a state, if any. -/
def faultRaised (i : Instr) (s : State) : Option Raised :=
  match i with
  | .ret => if s.sp = 0 then some { cause := .stackUnderflow, info := 0x0000#16 } else none
  | .call nnn => if s.sp = 16 then some { cause := .stackOverflow, info := nnn.setWidth 16 } else none
  | .skpVx x | .sknpVx x =>
    if 0x0F < (s.getV x).toNat then some { cause := .keyRange, info := (s.getV x).setWidth 16 } else none
  | .drwVxVyN _ _ n => if n ≠ 0 ∧ Config.memSize ≤ s.idx.toNat + n.val - 1 then some (pastMemory s) else none
  | .ldBVx _ => if Config.memSize ≤ s.idx.toNat + 2 then some (pastMemory s) else none
  | .ldMemVx x | .ldVxMem x => if Config.memSize ≤ s.idx.toNat + x.val then some (pastMemory s) else none
  | .cls | .jp _ | .seVxNn _ _ | .sneVxNn _ _ | .seVxVy _ _ | .ldVxNn _ _ | .addVxNn _ _ | .ldVxVy _ _ | .orVxVy _ _
  | .andVxVy _ _ | .xorVxVy _ _ | .addVxVy _ _ | .subVxVy _ _ | .shrVxVy _ _ | .subnVxVy _ _ | .shlVxVy _ _
  | .sneVxVy _ _ | .ldINnn _ | .jpV0Nnn _ | .rndVxNn _ _ | .ldVxDt _ | .ldVxK _ | .ldDtVx _ | .ldStVx _ | .addIVx _
  | .ldFVx _ | .clrfbN _ | .sysNnn _ => none

/-! ### The invariant -/

/-- What FAULT_INFO can hold beside each FAULT_CAUSE (60_exceptions.md R250): 0 without a fault and after STACK_UNDERFLOW, an
address past the memory after MEM_BOUNDS, a 12-bit target after STACK_OVERFLOW, a byte above 0x0F after KEY_RANGE. -/
def legalFaultRecord (cause : FaultCause) (info : Word) : Prop :=
  match cause with
  | .noFault => info = 0x0000#16
  | .memBounds => 0x1000 ≤ info.toNat
  | .stackOverflow => info.toNat < 0x1000
  | .stackUnderflow => info = 0x0000#16
  | .keyRange => 0x10 ≤ info.toNat ∧ info.toNat ≤ 0xFF

/-- The invariant: the memory is in canonical form, with no cell outside 0x000..0xFFF (20_memory.md R50); the fault register
holds a legal record (60_exceptions.md R250); and a block that has taken a fault is halted (R254). -/
structure Inv (s : State) : Prop where
  memory : s.mem.wf = true
  faultRecord : legalFaultRecord s.faultCause s.faultInfo
  stopped : s.faultCause ≠ .noFault → s.halted = true

/-! ### Running -/

/-- A block a tick can advance: reset or loaded, and not halted. -/
def running (s : State) : Prop := s.started = true ∧ s.halted = false

/-- A PC whose instruction word lies within memory (40_execution_cycle.md R102). -/
def fetchable (s : State) : Prop := s.pc.toNat + 1 < Config.memSize

/-- The word in memory at PC, big-endian (20_memory.md R53). -/
def wordAtPc (s : State) : Word := opcodeOfBytes (s.mem.read s.pc.toNat) (s.mem.read (s.pc.toNat + 1))

/-- A store of the tick in state `s`: the instruction at PC is an Fx33 or an Fx55 that stays within memory, and `b` is the byte
it stores at the address `a` (43_index_memory.md R187, R190). -/
def storesByte (s : State) (a : Nat) (b : Byte) : Prop :=
  ∃ x : Reg,
    (decode (wordAtPc s) = .ok (.ldBVx x) ∧ dataAddress s 2 < Config.memSize ∧
      ((a = dataAddress s 0 ∧ b.toNat = (s.getV x).toNat / 100) ∨
        (a = dataAddress s 1 ∧ b.toNat = (s.getV x).toNat / 10 % 10) ∨
        (a = dataAddress s 2 ∧ b.toNat = (s.getV x).toNat % 10))) ∨
    (decode (wordAtPc s) = .ok (.ldMemVx x) ∧ dataAddress s x.val < Config.memSize ∧
      ∃ k : Reg, k ≤ x ∧ a = dataAddress s k.val ∧ b = s.getV k)

/-- A safe run of `k` ticks: each has a next state, and no fault is recorded at its start or end. A claim about a program
takes it as its premise (60_exceptions.md R257: "FAULT_CAUSE = 0 throughout"). -/
def safeRun : Nat → State → Prop
  | 0, s => s.faultCause = .noFault
  | k + 1, s => s.faultCause = .noFault ∧ ∃ t, step s = .next t ∧ safeRun k t

end Sys2Proof.Machine
end

