-- ==== Sys2Proof/Certificates/Slice0/Obligations.lean ====
section
/-! DEFINITION. The statements for the provers. Each docstring names the rule of spec/ it formalises; where a clause rests on a
choice of the spec's own (a decision D<n> of 92_eei_decisions.md) or of the model (a log entry), it says so. -/

open Sys2Proof Sys2Proof.Machine

/-! ### Encoding -/

/-- Decoding the word, and the bytes, of a well-formed instruction gives it back, with the bytes after it left over. Derived
from the encoding table of 30_encoding.md R71 to R75; the strict decode is the spec's own choice (D14). -/
def Obligations.DecodeOfEncodeReturnsInstruction : Prop :=
  ∀ (i : Instr) (rest : List Byte), i.wellFormed = true →
    decode (encode i) = .ok i ∧ decodeBytes (encodeBytes i ++ rest) = .ok (i, rest)

/-- A word that decodes is the encoding of the well-formed instruction it decodes to: every bit of it has its one meaning.
Derived from 30_encoding.md R73; the strict decode is the spec's own choice (D14). -/
def Obligations.EncodeOfDecodedWordReturnsWord : Prop :=
  ∀ (op : Word) (i : Instr), decode op = .ok i → i.wellFormed = true ∧ encode i = op

/-- Every row of the opcode map of 30_encoding.md R75, digit by digit: the fixed digits as the table's pattern has them, the
fields in their places (R71). SYS takes the words of family 0x0 that CLS, RET and CLRFB leave. The fixed low digits of 5xy0 and
9xy0 and the precedence in family 0x0 are the spec's own choice (D14). -/
def Obligations.OpcodeMapRowsDecode : Prop :=
  ∀ (x y n : Fin 16) (nn : Byte) (nnn : Addr12),
    let dx : BitVec 4 := BitVec.ofNat 4 x.val
    let dy : BitVec 4 := BitVec.ofNat 4 y.val
    let dn : BitVec 4 := BitVec.ofNat 4 n.val
    decode 0x00E0#16 = .ok .cls ∧ decode 0x00EE#16 = .ok .ret ∧
    decode (0x1#4 ++ nnn) = .ok (.jp nnn) ∧ decode (0x2#4 ++ nnn) = .ok (.call nnn) ∧
    decode (0x3#4 ++ dx ++ nn) = .ok (.seVxNn x nn) ∧ decode (0x4#4 ++ dx ++ nn) = .ok (.sneVxNn x nn) ∧
    decode (0x5#4 ++ dx ++ dy ++ 0x0#4) = .ok (.seVxVy x y) ∧
    decode (0x6#4 ++ dx ++ nn) = .ok (.ldVxNn x nn) ∧ decode (0x7#4 ++ dx ++ nn) = .ok (.addVxNn x nn) ∧
    decode (0x8#4 ++ dx ++ dy ++ 0x0#4) = .ok (.ldVxVy x y) ∧ decode (0x8#4 ++ dx ++ dy ++ 0x1#4) = .ok (.orVxVy x y) ∧
    decode (0x8#4 ++ dx ++ dy ++ 0x2#4) = .ok (.andVxVy x y) ∧ decode (0x8#4 ++ dx ++ dy ++ 0x3#4) = .ok (.xorVxVy x y) ∧
    decode (0x8#4 ++ dx ++ dy ++ 0x4#4) = .ok (.addVxVy x y) ∧ decode (0x8#4 ++ dx ++ dy ++ 0x5#4) = .ok (.subVxVy x y) ∧
    decode (0x8#4 ++ dx ++ dy ++ 0x6#4) = .ok (.shrVxVy x y) ∧ decode (0x8#4 ++ dx ++ dy ++ 0x7#4) = .ok (.subnVxVy x y) ∧
    decode (0x8#4 ++ dx ++ dy ++ 0xE#4) = .ok (.shlVxVy x y) ∧
    decode (0x9#4 ++ dx ++ dy ++ 0x0#4) = .ok (.sneVxVy x y) ∧
    decode (0xA#4 ++ nnn) = .ok (.ldINnn nnn) ∧ decode (0xB#4 ++ nnn) = .ok (.jpV0Nnn nnn) ∧
    decode (0xC#4 ++ dx ++ nn) = .ok (.rndVxNn x nn) ∧ decode (0xD#4 ++ dx ++ dy ++ dn) = .ok (.drwVxVyN x y n) ∧
    decode (0xE#4 ++ dx ++ 0x9E#8) = .ok (.skpVx x) ∧ decode (0xE#4 ++ dx ++ 0xA1#8) = .ok (.sknpVx x) ∧
    decode (0xF#4 ++ dx ++ 0x07#8) = .ok (.ldVxDt x) ∧ decode (0xF#4 ++ dx ++ 0x0A#8) = .ok (.ldVxK x) ∧
    decode (0xF#4 ++ dx ++ 0x15#8) = .ok (.ldDtVx x) ∧ decode (0xF#4 ++ dx ++ 0x18#8) = .ok (.ldStVx x) ∧
    decode (0xF#4 ++ dx ++ 0x1E#8) = .ok (.addIVx x) ∧ decode (0xF#4 ++ dx ++ 0x29#8) = .ok (.ldFVx x) ∧
    decode (0xF#4 ++ dx ++ 0x33#8) = .ok (.ldBVx x) ∧ decode (0xF#4 ++ dx ++ 0x55#8) = .ok (.ldMemVx x) ∧
    decode (0xF#4 ++ dx ++ 0x65#8) = .ok (.ldVxMem x) ∧
    decode (0x00C#12 ++ dn) = .ok (.clrfbN n) ∧
    (nnn ≠ 0x0E0#12 → nnn ≠ 0x0EE#12 → nnn.toNat / 16 ≠ 0x0C → decode (0x0#4 ++ nnn) = .ok (.sysNnn nnn))

/-- The decoder rejects a word exactly where the "else" lines of 30_encoding.md R73 say UNKNOWN, by the name of the word: by
the digits h = op / 4096, n = op mod 16 and the byte nn = op mod 256. Strict in families 0x5 and 0x9 by the spec's own choice
(D14). -/
def Obligations.UnknownWordsAreTheElseLines : Prop :=
  ∀ (op : Word) (r : DecodeReject), decode op = .error r ↔
    r = .unknownOpcode op ∧
      ((op.toNat / 4096 = 0x5 ∧ op.toNat % 16 ≠ 0x0) ∨ (op.toNat / 4096 = 0x9 ∧ op.toNat % 16 ≠ 0x0) ∨
        (op.toNat / 4096 = 0x8 ∧ 0x8 ≤ op.toNat % 16 ∧ op.toNat % 16 ≠ 0xE) ∨
        (op.toNat / 4096 = 0xE ∧ op.toNat % 256 ∉ [0x9E, 0xA1]) ∨
        (op.toNat / 4096 = 0xF ∧ op.toNat % 256 ∉ [0x07, 0x0A, 0x15, 0x18, 0x1E, 0x29, 0x33, 0x55, 0x65]))

/-- A few words written out from the patterns of 30_encoding.md R75, and three UNKNOWN ones of 95_test_vectors.md X6 and X8. -/
def Obligations.SampleWordsDecode : Prop :=
  decode 0x00EE#16 = .ok .ret ∧ decode 0x2300#16 = .ok (.call 0x300#12) ∧ decode 0x3342#16 = .ok (.seVxNn 3 0x42#8) ∧
    decode 0x8F14#16 = .ok (.addVxVy 15 1) ∧ decode 0xDAB1#16 = .ok (.drwVxVyN 10 11 1) ∧
    decode 0xF20A#16 = .ok (.ldVxK 2) ∧ decode 0xF355#16 = .ok (.ldMemVx 3) ∧ decode 0x00CF#16 = .ok (.clrfbN 15) ∧
    decode 0x01E0#16 = .ok (.sysNnn 0x1E0#12) ∧ decode 0x5121#16 = .error (.unknownOpcode 0x5121#16) ∧
    decode 0x800F#16 = .error (.unknownOpcode 0x800F#16) ∧ decode 0xFFFF#16 = .error (.unknownOpcode 0xFFFF#16)

/-! ### The tick -/

/-- A tick of a running block runs the instruction in memory at PC, big-endian, in the state whose nonzero timers have lost one
(40_execution_cycle.md R100, R102, R104, R105; 20_memory.md R53). What `exec` adds to the instruction's own effect, the PC
advance and the key-mask update, is in its statements. -/
def Obligations.StepRunsDecodedInstruction : Prop :=
  ∀ (s : State) (i : Instr), running s → fetchable s → decode (wordAtPc s) = .ok i →
    step s = exec i { s with
      dt := if s.dt = 0x00#8 then 0x00#8 else s.dt - 1
      st := if s.st = 0x00#8 then 0x00#8 else s.st - 1 }

/-- A tick on an UNKNOWN word completes: one report with the word and its address, PC past the word, the timers and KEYS_PREV
as after every instruction, and nothing else (40_execution_cycle.md R108). The report's form is the spec's own choice (D16);
the model keeps it in State (log entry 3). -/
def Obligations.UnknownWordIsReportedAndSkipped : Prop :=
  ∀ (s : State) (r : DecodeReject), running s → fetchable s → decode (wordAtPc s) = .error r →
    ∃ t, step s = .next t ∧ t.reports = s.reports ++ [.unknownOpcode s.pc (wordAtPc s)] ∧ t.pc = s.pc + 2 ∧
      t.dt.toNat = s.dt.toNat - 1 ∧ t.st.toNat = s.st.toNat - 1 ∧
      WritesAtMost { delayTimer := true, soundTimer := true, report := true } s t

/-- A tick whose fetch leaves the memory takes MEM_BOUNDS with the first address outside: PC, or 0x1000 when PC = 0x0FFF
(40_execution_cycle.md R102; 60_exceptions.md R252, R255). The tick's timer decrement stays. The fault and its precision are
the spec's own choice (D2, D5, D30); that taking one is a next state is log entry 1. -/
def Obligations.FetchPastMemoryFaults : Prop :=
  ∀ s : State, running s → ¬fetchable s → s.faultCause = .noFault →
    step s = .next { s with
      dt := if s.dt = 0x00#8 then 0x00#8 else s.dt - 1
      st := if s.st = 0x00#8 then 0x00#8 else s.st - 1
      halted := true
      faultCause := .memBounds
      faultInfo := if s.pc.toNat < 0x1000 then 0x1000#16 else s.pc }

/-- A tick answers no next state only before the first reset or load (10_state.md R38, 70_reset_and_hazards.md R297; the spec's
own choice D25; the started flag is the model's, log entry 4). A block that is started always has a next state, which a tick that
faults has as well: that the fault entry of 60_exceptions.md R252 (the spec's own choice D5) is a next state, where R257 calls a
fault a distinct outcome, is log entry 1. While HALTED that state is the same one (40_execution_cycle.md R101, the spec's own
choice D17). -/
def Obligations.TicksStopOnlyBeforeReset : Prop :=
  ∀ s : State, (s.started = false → step s = .fault .beforeReset) ∧
    (s.started = true → ∃ t, step s = .next t ∧ t.started = true) ∧
    (s.started = true → s.halted = true → step s = .next s)

/-- Each tick of a running block takes exactly one from each nonzero timer and leaves a zero timer at zero, whatever else the
tick does, a fault included, and before the tick's instruction: an Fx07 of that tick reads the value counted down, and an Fx15 or
Fx18 of that tick loads its timer (60_exceptions.md R265). -/
def Obligations.TimersLoseOnePerTick : Prop :=
  ∀ s t : State, running s → step s = .next t →
    (¬(fetchable s ∧ ∃ x, decode (wordAtPc s) = .ok (.ldDtVx x)) → t.dt.toNat = s.dt.toNat - 1) ∧
    (¬(fetchable s ∧ ∃ x, decode (wordAtPc s) = .ok (.ldStVx x)) → t.st.toNat = s.st.toNat - 1) ∧
    (∀ x, fetchable s → decode (wordAtPc s) = .ok (.ldDtVx x) → t.dt = s.getV x) ∧
    (∀ x, fetchable s → decode (wordAtPc s) = .ok (.ldStVx x) → t.st = s.getV x) ∧
    (∀ x, fetchable s → decode (wordAtPc s) = .ok (.ldVxDt x) → (t.getV x).toNat = s.dt.toNat - 1)

/-- After j ticks of a running block with no Fx15 among them, DT has lost j or reached 0 (70_reset_and_hazards.md R306, which
the spec derives from 40_execution_cycle.md R100). -/
def Obligations.DelayTimerAfterTicks : Prop :=
  ∀ (run : Nat → State) (j : Nat),
    (∀ k < j, running (run k) ∧ step (run k) = .next (run (k + 1)) ∧
      ∀ x, decode (wordAtPc (run k)) ≠ .ok (.ldDtVx x)) →
    (run j).dt.toNat = (run 0).dt.toNat - j

/-- An instruction placed by `withFetchWord` is the one the next step runs, whatever the state's PC, HALTED and started flag
were: at PC, or at 0x0200 where no fetch can use PC (0x0FFF and above). The state it runs in holds its two bytes at that address,
has each timer one lower (a zero timer zero), is started and not halted, and is as before in everything else (the model's own
interface, log entry 6). -/
def Obligations.PlacedWordRunsNext : Prop :=
  ∀ (s : State) (w : Nat) (i : Instr), s.mem.wf = true → decodeTableWord 16 w = some i →
    let pc : Word := if s.pc.toNat + 1 < 0x1000 then s.pc else 0x0200#16
    ∃ u, step (s.withFetchWord 16 w) = exec i u ∧ u.pc = pc ∧ u.mem.read pc.toNat = BitVec.ofNat 8 (w / 256) ∧
      u.mem.read (pc.toNat + 1) = BitVec.ofNat 8 w ∧
      (∀ a, a ≠ pc.toNat → a ≠ pc.toNat + 1 → u.mem.read a = s.mem.read a) ∧
      u.dt.toNat = s.dt.toNat - 1 ∧ u.st.toNat = s.st.toNat - 1 ∧ u.started = true ∧ u.halted = false ∧
      u.v = s.v ∧ u.idx = s.idx ∧ u.stack = s.stack ∧ u.sp = s.sp ∧ u.fb = s.fb ∧
      u.keysCur = s.keysCur ∧ u.keysPrev = s.keysPrev ∧ u.faultCause = s.faultCause ∧ u.faultInfo = s.faultInfo ∧
      u.draws = s.draws ∧ u.reports = s.reports

/-! ### Faults -/

/-- Fault entry: in the state as the instruction began, HALTED is set, the fault register takes the cause and the information
unless it holds a fault already, and all else, PC among it, is as it was (60_exceptions.md R252, R253); and the causes have the
codes of R250. All of it is the spec's own choice (D5); that it is the next state of the tick is log entry 1. -/
def Obligations.FaultEntryIsPrecise : Prop :=
  (∀ (s : State) (f : Raised), s.enterFault f = { s with
    halted := true
    faultCause := if s.faultCause = .noFault then f.cause else s.faultCause
    faultInfo := if s.faultCause = .noFault then f.info else s.faultInfo }) ∧
  FaultCause.noFault.code = 0 ∧ FaultCause.memBounds.code = 1 ∧ FaultCause.stackOverflow.code = 2 ∧
  FaultCause.stackUnderflow.code = 3 ∧ FaultCause.keyRange.code = 4

/-- Each instruction raises the fault 60_exceptions.md R250 gives it, exactly where it does, with the cause and the information
of the table and the first address outside (R255), and then takes it; everywhere else it completes, with the key-mask update
and no fault (R251). The faults are the spec's own choice (D2, D3, D5, D6, D30); that taking one is a next state is log entry 1. -/
def Obligations.FaultsAreExactlyTheTable : Prop :=
  ∀ (i : Instr) (s : State),
    (∀ f, faultRaised i s = some f → exec i s = .next (s.enterFault f)) ∧
    (faultRaised i s = none → ∃ t, exec i s = .next t ∧ t.keysPrev = s.keysCur ∧ t.halted = s.halted ∧
      t.faultCause = s.faultCause ∧ t.faultInfo = s.faultInfo)

/-! ### Invariants -/

/-- Every step keeps the invariant `Inv`. Its three clauses are these. The memory list is in canonical form with every address
below 0x1000: the form is the model's own (log entry 11), the range is that of 20_memory.md R50. The fault register holds a legal
record: the causes and what each records are those of 60_exceptions.md R250, the spec's own choice (D2, D3, D5, D6). A block that
has taken a fault is halted: R252 and R254, the spec's own choice (D5), with the fault entry read as a next state (log
entry 1). -/
def Obligations.StepKeepsInvariant : Prop :=
  ∀ s t : State, Inv s → step s = .next t → Inv t

/-- The invariant `Inv` of StepKeepsInvariant holds at reset: memory with nothing listed is in canonical form (the form is the
model's own, log entry 11; every cell is 0x00 by 10_state.md R37), and FAULT_CAUSE and FAULT_INFO are 0 (R37, the spec's own choice
D18 and D5). -/
def Obligations.InvariantHoldsAtReset : Prop := Inv State.reset

/-- Every operation of 00_scope.md R7 keeps the invariant `Inv` of StepKeepsInvariant. No rule of the spec gives the invariant: its
canonical memory is the model's own (log entry 11), its fault clauses are the spec's own choice (D5; log entry 1), and that the
operations stand beside step is the model's choice (log entry 5). -/
def Obligations.OperationsKeepInvariant : Prop :=
  ∀ (operation : Operation) (s t : State), Inv s → perform operation s = .next t → Inv t

/-- In a started block every operation of every sequence answers a next state, and the block stays started (00_scope.md R11). It
does not say that the block keeps running: halt() and a fault halt it (10_state.md R32), and then too every operation answers a
next state, a tick the same one (60_exceptions.md R254, R271; the spec's own choice D5 and D17). That a fault is taken in a next
state is log entry 1; the started flag is log entry 4, and the operations beside step are log entry 5. -/
def Obligations.StartedBlockNeverStops : Prop :=
  ∀ (operations : List Operation) (s : State), s.started = true →
    ∃ t, performAll operations s = .next t ∧ t.started = true

/-- A halted block stays as it is until a reset or a load that passes its length check: ticks, halts, key operations and
rejected loads change nothing but the key masks and the report stream (60_exceptions.md R254, R271, R283; the spec's own choice
D5, D17). -/
def Obligations.HaltLastsUntilReset : Prop :=
  ∀ (operations : List Operation) (s t : State), s.halted = true →
    (∀ o ∈ operations, o ≠ .reset ∧ ∀ bytes, o = .loadProgram bytes → bytes.length = 0 ∨ 3584 < bytes.length) →
    performAll operations s = .next t →
    t = { s with keysCur := t.keysCur, keysPrev := t.keysPrev, reports := t.reports }

/-! ### Who writes what -/

/-- A step that changes I ran Annn, Fx1E or Fx29 (10_state.md R24; that the memory instructions leave I is the spec's own
choice D11). -/
def Obligations.OnlyIndexInstructionsChangeIndex : Prop :=
  ∀ s t : State, step s = .next t → t.idx ≠ s.idx →
    ∃ i, decode (wordAtPc s) = .ok i ∧ ((∃ nnn, i = .ldINnn nnn) ∨ (∃ x, i = .addIVx x) ∨ (∃ x, i = .ldFVx x))

/-- A step that changes the byte at an address ran Fx33 with the address among I to I + 2, or Fx55 with it among I to I + x
(20_memory.md R50, R57). -/
def Obligations.OnlyStoresChangeMemory : Prop :=
  ∀ (s t : State) (a : Nat), s.mem.wf = true → step s = .next t → t.mem.read a ≠ s.mem.read a →
    ∃ x, (decode (wordAtPc s) = .ok (.ldBVx x) ∧ dataAddress s 0 ≤ a ∧ a ≤ dataAddress s 2) ∨
      (decode (wordAtPc s) = .ok (.ldMemVx x) ∧ dataAddress s 0 ≤ a ∧ a ≤ dataAddress s x.val)

/-- A step that changes SP ran CALL, and SP is one more, or RET, and SP is one less; one that changes an entry of STACK ran
CALL, and the entry is the one SP named (10_state.md R26, R27; SP's form is the spec's own choice D4). -/
def Obligations.OnlyCallAndReturnChangeStack : Prop :=
  ∀ s t : State, step s = .next t →
    (t.sp ≠ s.sp → (∃ nnn, decode (wordAtPc s) = .ok (.call nnn) ∧ t.sp.val = s.sp.val + 1) ∨
      (decode (wordAtPc s) = .ok .ret ∧ t.sp.val + 1 = s.sp.val)) ∧
    (∀ k : Nat, t.stack[k]? ≠ s.stack[k]? → k = s.sp.val ∧ ∃ nnn, decode (wordAtPc s) = .ok (.call nnn))

/-- A step that changes the framebuffer ran 00E0, 00Cn or Dxyn (00_scope.md R10, 10_state.md R30). -/
def Obligations.OnlyDisplayInstructionsChangeFramebuffer : Prop :=
  ∀ s t : State, step s = .next t → t.fb ≠ s.fb →
    ∃ i, decode (wordAtPc s) = .ok i ∧ (i = .cls ∨ (∃ n, i = .clrfbN n) ∨ ∃ x y n, i = .drwVxVyN x y n)

/-- A step that changes VF ran an instruction that writes VF as a flag (8xy4 to 8xy7, 8xyE, Dxyn), or one whose destination is
VF (10_state.md R22). -/
def Obligations.OnlyNamedInstructionsChangeFlagRegister : Prop :=
  ∀ s t : State, step s = .next t → t.getV vF ≠ s.getV vF →
    ∃ i, decode (wordAtPc s) = .ok i ∧
      ((∃ x y, i = .addVxVy x y ∨ i = .subVxVy x y ∨ i = .shrVxVy x y ∨ i = .subnVxVy x y ∨ i = .shlVxVy x y) ∨
        (∃ x y n, i = .drwVxVyN x y n) ∨
        (∃ nn, i = .ldVxNn vF nn ∨ i = .addVxNn vF nn ∨ i = .rndVxNn vF nn) ∨
        (∃ y, i = .ldVxVy vF y ∨ i = .orVxVy vF y ∨ i = .andVxVy vF y ∨ i = .xorVxVy vF y) ∨
        i = .ldVxDt vF ∨ i = .ldVxK vF ∨ i = .ldVxMem vF)

/-! ### System and control flow -/

/-- SYS nnn (40_execution_cycle.md R107): a no-op advance with no report. -/
def Obligations.SysOnlyAdvances : Prop :=
  ∀ (nnn : Addr12) (s : State), ∃ t, exec (.sysNnn nnn) s = .next t ∧ t.pc = s.pc + 2 ∧ WritesAtMost {} s t

/-- RET with an entry on the stack (41_control_flow.md R123): PC is the top entry, SP one less, the entries as they were. SP's
form is the spec's own choice (D4); the empty stack is in FaultsAreExactlyTheTable. -/
def Obligations.ReturnPopsTopEntry : Prop :=
  ∀ s : State, s.sp ≠ 0 → ∃ t, exec .ret s = .next t ∧ t.sp.val + 1 = s.sp.val ∧ s.stack[t.sp.val]? = some t.pc ∧
    t.stack = s.stack ∧ WritesAtMost { callStack := true } s t

/-- JP nnn (41_control_flow.md R124): its encoding, PC = nnn with nothing else changed, and the jump to itself, after which only
DT, ST and KEYS_PREV differ. And after a jump to 0xFFF the next fetch faults: R124 says no more, and that the fault is MEM_BOUNDS
with 0x1000 is 40_execution_cycle.md R102 and 60_exceptions.md R250 (the spec's own choice D2 and D5, followed by log entry 7),
taken in a next state (log entry 1). -/
def Obligations.JumpGoesToTarget : Prop :=
  (∀ nnn : Addr12, decode (0x1#4 ++ nnn) = .ok (.jp nnn)) ∧
  (∀ (nnn : Addr12) (s : State), ∃ t, exec (.jp nnn) s = .next t ∧ t.pc.toNat = nnn.toNat ∧ WritesAtMost {} s t ∧
    (nnn = 0xFFF#12 → running s → s.faultCause = .noFault →
      ∃ u, step t = .next u ∧ u.faultCause = .memBounds ∧ u.faultInfo = 0x1000#16)) ∧
  (∀ (nnn : Addr12) (s : State), running s → fetchable s → s.pc.toNat = nnn.toNat → wordAtPc s = 0x1#4 ++ nnn →
    ∃ t, step s = .next t ∧ t = { s with dt := t.dt, st := t.st, keysPrev := t.keysPrev } ∧
      t.dt.toNat = s.dt.toNat - 1 ∧ t.st.toNat = s.st.toNat - 1 ∧ t.keysPrev = s.keysCur)

/-- CALL nnn with room on the stack (41_control_flow.md R125): the address of the word after it is pushed, and PC = nnn. SP's
form is the spec's own choice (D4); the full stack is in FaultsAreExactlyTheTable. -/
def Obligations.CallPushesReturnAddress : Prop :=
  ∀ (nnn : Addr12) (s : State), s.sp ≠ 16 → ∃ t, exec (.call nnn) s = .next t ∧ t.sp.val = s.sp.val + 1 ∧
    t.stack[s.sp.val]? = some (s.pc + 2) ∧ (∀ k : Nat, k ≠ s.sp.val → t.stack[k]? = s.stack[k]?) ∧
    t.pc.toNat = nnn.toNat ∧ WritesAtMost { callStack := true } s t

/-- A RET that finds the stack as a CALL left it goes back to the word after the CALL and to the depth before it
(41_control_flow.md R123, R125; the spec's own choice D4 of SP's form). -/
def Obligations.ReturnGoesBackAfterCall : Prop :=
  ∀ (nnn : Addr12) (s t u : State), s.sp ≠ 16 → exec (.call nnn) s = .next t → u.stack = t.stack → u.sp = t.sp →
    ∃ w, exec .ret u = .next w ∧ w.pc = s.pc + 2 ∧ w.sp = s.sp

/-- SE Vx, nn and SNE Vx, nn (41_control_flow.md R130, R131): encodings, and one instruction passed over exactly when the
values are equal, or differ. Nothing else changes. And after a skip from 0xFFC the next fetch faults: R130 says no more, and that
the fault is MEM_BOUNDS with 0x1000 is 40_execution_cycle.md R102 and 60_exceptions.md R250 (the spec's own choice D2 and D5,
followed by log entry 7), taken in a next state (log entry 1). -/
def Obligations.SkipsOnImmediate : Prop :=
  ∀ (x : Reg) (nn : Byte),
    decode (0x3#4 ++ BitVec.ofNat 4 x.val ++ nn) = .ok (.seVxNn x nn) ∧
    decode (0x4#4 ++ BitVec.ofNat 4 x.val ++ nn) = .ok (.sneVxNn x nn) ∧
    ∀ s : State,
      (∃ t, exec (.seVxNn x nn) s = .next t ∧ t.pc = (if s.getV x = nn then s.pc + 4 else s.pc + 2) ∧
        WritesAtMost {} s t ∧
        (s.pc = 0xFFC#16 → s.getV x = nn → running s → s.faultCause = .noFault →
          ∃ u, step t = .next u ∧ u.faultCause = .memBounds ∧ u.faultInfo = 0x1000#16)) ∧
      (∃ t, exec (.sneVxNn x nn) s = .next t ∧ t.pc = (if s.getV x = nn then s.pc + 2 else s.pc + 4) ∧
        WritesAtMost {} s t)

/-- SE Vx, Vy and SNE Vx, Vy (41_control_flow.md R132, R133): the same on two registers. -/
def Obligations.SkipsOnRegisters : Prop :=
  ∀ (x y : Reg) (s : State),
    (∃ t, exec (.seVxVy x y) s = .next t ∧ t.pc = (if s.getV x = s.getV y then s.pc + 4 else s.pc + 2) ∧
      WritesAtMost {} s t) ∧
    (∃ t, exec (.sneVxVy x y) s = .next t ∧ t.pc = (if s.getV x = s.getV y then s.pc + 2 else s.pc + 4) ∧
      WritesAtMost {} s t)

/-- JP V0, nnn (41_control_flow.md R140): PC is the exact sum of V0 and nnn, not reduced to 12 bits (the spec's own choice
D21). -/
def Obligations.JumpV0AddsOffset : Prop :=
  ∀ (nnn : Addr12) (s : State), ∃ t, exec (.jpV0Nnn nnn) s = .next t ∧
    t.pc.toNat = (s.getV v0).toNat + nnn.toNat ∧ WritesAtMost {} s t

/-! ### Register loads and the ALU -/

/-- LD Vx, nn (42_alu.md R152). -/
def Obligations.LoadImmediate : Prop :=
  ∀ (x : Reg) (nn : Byte), decode (0x6#4 ++ BitVec.ofNat 4 x.val ++ nn) = .ok (.ldVxNn x nn) ∧
    ∀ s : State, ∃ t, exec (.ldVxNn x nn) s = .next t ∧ t.getV x = nn ∧ t.pc = s.pc + 2 ∧ WritesAtMost { regs := [x] } s t

/-- ADD Vx, nn (42_alu.md R153): the sum modulo 256, with no flag. -/
def Obligations.AddImmediateWraps : Prop :=
  ∀ (x : Reg) (nn : Byte), decode (0x7#4 ++ BitVec.ofNat 4 x.val ++ nn) = .ok (.addVxNn x nn) ∧
    ∀ s : State, ∃ t, exec (.addVxNn x nn) s = .next t ∧ (t.getV x).toNat = ((s.getV x).toNat + nn.toNat) % 256 ∧
      t.pc = s.pc + 2 ∧ WritesAtMost { regs := [x] } s t

/-- LD Vx, Vy (42_alu.md R155). -/
def Obligations.CopyRegister : Prop :=
  ∀ x y : Reg, decode (0x8#4 ++ BitVec.ofNat 4 x.val ++ BitVec.ofNat 4 y.val ++ 0x0#4) = .ok (.ldVxVy x y) ∧
    ∀ s : State, ∃ t, exec (.ldVxVy x y) s = .next t ∧ t.getV x = s.getV y ∧ t.pc = s.pc + 2 ∧
      WritesAtMost { regs := [x] } s t

/-- OR, AND and XOR Vx, Vy (42_alu.md R156, R157, R158): bit by bit, with no flag and VF not reset. -/
def Obligations.BitwiseOperations : Prop :=
  ∀ x y : Reg,
    decode (0x8#4 ++ BitVec.ofNat 4 x.val ++ BitVec.ofNat 4 y.val ++ 0x1#4) = .ok (.orVxVy x y) ∧
    decode (0x8#4 ++ BitVec.ofNat 4 x.val ++ BitVec.ofNat 4 y.val ++ 0x2#4) = .ok (.andVxVy x y) ∧
    decode (0x8#4 ++ BitVec.ofNat 4 x.val ++ BitVec.ofNat 4 y.val ++ 0x3#4) = .ok (.xorVxVy x y) ∧
    ∀ s : State,
      (∃ t, exec (.orVxVy x y) s = .next t ∧
        (∀ k, (t.getV x).getLsbD k = ((s.getV x).getLsbD k || (s.getV y).getLsbD k)) ∧ t.pc = s.pc + 2 ∧
        WritesAtMost { regs := [x] } s t) ∧
      (∃ t, exec (.andVxVy x y) s = .next t ∧
        (∀ k, (t.getV x).getLsbD k = ((s.getV x).getLsbD k && (s.getV y).getLsbD k)) ∧ t.pc = s.pc + 2 ∧
        WritesAtMost { regs := [x] } s t) ∧
      (∃ t, exec (.xorVxVy x y) s = .next t ∧
        (∀ k, (t.getV x).getLsbD k = ((s.getV x).getLsbD k ^^ (s.getV y).getLsbD k)) ∧ t.pc = s.pc + 2 ∧
        WritesAtMost { regs := [x] } s t)

/-- ADD Vx, Vy (42_alu.md R159): the sum modulo 256 in Vx and the carry in VF; with x = 0xF the carry stays and the sum is lost
(the spec's own choice D13). -/
def Obligations.AddSetsCarry : Prop :=
  ∀ (x y : Reg) (s : State), ∃ t, exec (.addVxVy x y) s = .next t ∧
    t.getV vF = (if 255 < (s.getV x).toNat + (s.getV y).toNat then 1 else 0) ∧
    (x ≠ vF → (t.getV x).toNat = ((s.getV x).toNat + (s.getV y).toNat) % 256) ∧ t.pc = s.pc + 2 ∧
    WritesAtMost { regs := [x, vF] } s t

/-- SUB and SUBN Vx, Vy (42_alu.md R160, R162): Vx - Vy, or Vy - Vx, modulo 256 in Vx, and "no borrow" in VF; with x = 0xF the
flag stays (the spec's own choice D13). -/
def Obligations.SubtractSetsNoBorrow : Prop :=
  ∀ (x y : Reg) (s : State),
    (∃ t, exec (.subVxVy x y) s = .next t ∧
      t.getV vF = (if (s.getV y).toNat ≤ (s.getV x).toNat then 1 else 0) ∧
      (x ≠ vF → (t.getV x).toNat = ((s.getV x).toNat + 256 - (s.getV y).toNat) % 256) ∧ t.pc = s.pc + 2 ∧
      WritesAtMost { regs := [x, vF] } s t) ∧
    (∃ t, exec (.subnVxVy x y) s = .next t ∧
      t.getV vF = (if (s.getV x).toNat ≤ (s.getV y).toNat then 1 else 0) ∧
      (x ≠ vF → (t.getV x).toNat = ((s.getV y).toNat + 256 - (s.getV x).toNat) % 256) ∧ t.pc = s.pc + 2 ∧
      WritesAtMost { regs := [x, vF] } s t)

/-- SHR and SHL Vx, Vy (42_alu.md R161, R163): Vx halved, or doubled modulo 256, and the bit shifted out in VF. With x = 0xF the
flag is written first and then shifted: VF is 0 after SHR, and twice the old bit 7 after SHL (R151, R302; the spec's own choice
D13). Vy is not read. -/
def Obligations.ShiftsSetBitShiftedOut : Prop :=
  ∀ (x y : Reg) (s : State),
    (∃ t, exec (.shrVxVy x y) s = .next t ∧
      (x ≠ vF → (t.getV x).toNat = (s.getV x).toNat / 2 ∧ (t.getV vF).toNat = (s.getV x).toNat % 2) ∧
      (x = vF → t.getV vF = 0) ∧ t.pc = s.pc + 2 ∧ WritesAtMost { regs := [x, vF] } s t) ∧
    (∃ t, exec (.shlVxVy x y) s = .next t ∧
      (x ≠ vF → (t.getV x).toNat = (s.getV x).toNat * 2 % 256 ∧ (t.getV vF).toNat = (s.getV x).toNat / 128) ∧
      (x = vF → (t.getV vF).toNat = 2 * ((s.getV vF).toNat / 128)) ∧ t.pc = s.pc + 2 ∧
      WritesAtMost { regs := [x, vF] } s t)

/-- RND Vx, nn (42_alu.md R170): Vx is the draw masked with nn, and the draw is used up. The draw is a free value (D15), of which
nothing is known; that it is the constant `Config.randomByte` at a counter is the model's form (log entry 2). Whatever the draw,
the bits where nn is 0 are 0, and with nn = 0xFF Vx is the draw. -/
def Obligations.RandomByteIsMasked : Prop :=
  (∀ (x : Reg) (nn : Byte) (s : State), ∃ t, exec (.rndVxNn x nn) s = .next t ∧
    t.getV x = Config.randomByte s.draws &&& nn ∧ t.draws = s.draws + 1 ∧ t.pc = s.pc + 2 ∧
    WritesAtMost { regs := [x], draw := true } s t) ∧
  (∀ (r : Byte) (x : Reg) (nn : Byte) (s : State),
    (∀ k, nn.getLsbD k = false → ((randomMasked r x nn s).getV x).getLsbD k = false) ∧
    (randomMasked r x 0xFF#8 s).getV x = r)

/-! ### Index register and memory -/

/-- LD I, nnn (43_index_memory.md R181). -/
def Obligations.LoadIndex : Prop :=
  ∀ nnn : Addr12, decode (0xA#4 ++ nnn) = .ok (.ldINnn nnn) ∧
    ∀ s : State, ∃ t, exec (.ldINnn nnn) s = .next t ∧ t.idx.toNat = nnn.toNat ∧ t.pc = s.pc + 2 ∧
      WritesAtMost { index := true } s t

/-- ADD I, Vx (43_index_memory.md R183): modulo 2^16 with no flag (the spec's own choice D12), no fault above 0xFFF; and LD F, Vx
(R185): five times the whole byte. -/
def Obligations.IndexArithmetic : Prop :=
  ∀ (x : Reg) (s : State),
    (∃ t, exec (.addIVx x) s = .next t ∧ t.idx.toNat = (s.idx.toNat + (s.getV x).toNat) % 65536 ∧ t.pc = s.pc + 2 ∧
      WritesAtMost { index := true } s t) ∧
    (∃ t, exec (.ldFVx x) s = .next t ∧ t.idx.toNat = (s.getV x).toNat * 5 ∧ t.pc = s.pc + 2 ∧
      WritesAtMost { index := true } s t)

/-- LD B, Vx within memory (43_index_memory.md R187): the three decimal digits of Vx at I, I + 1 and I + 2, and no other byte
changed. Past the memory it faults (FaultsAreExactlyTheTable). I unchanged is the spec's own choice (D11). -/
def Obligations.StoreDecimalDigits : Prop :=
  ∀ (x : Reg) (s : State), s.mem.wf = true → dataAddress s 2 < 0x1000 →
    ∃ t, exec (.ldBVx x) s = .next t ∧
      (s.getV x).toNat = 100 * (t.mem.read (dataAddress s 0)).toNat + 10 * (t.mem.read (dataAddress s 1)).toNat +
        (t.mem.read (dataAddress s 2)).toNat ∧
      (t.mem.read (dataAddress s 1)).toNat < 10 ∧ (t.mem.read (dataAddress s 2)).toNat < 10 ∧ t.pc = s.pc + 2 ∧
      WritesAtMost { memory := [dataAddress s 0, dataAddress s 1, dataAddress s 2] } s t

/-- LD [I], Vx within memory (43_index_memory.md R190): V0 to Vx at I to I + x, and no other byte changed. Past the memory it
faults (FaultsAreExactlyTheTable). I unchanged is the spec's own choice (D11). -/
def Obligations.StoreRegisters : Prop :=
  ∀ (x : Reg) (s : State), s.mem.wf = true → dataAddress s x.val < 0x1000 →
    ∃ t, exec (.ldMemVx x) s = .next t ∧ (∀ k : Reg, k ≤ x → t.mem.read (dataAddress s k.val) = s.getV k) ∧
      t.pc = s.pc + 2 ∧ WritesAtMost { memory := (List.range (x.val + 1)).map (dataAddress s) } s t

/-- LD Vx, [I] within memory (43_index_memory.md R192): V0 to Vx from I to I + x, the registers above x unchanged. Past the
memory it faults (FaultsAreExactlyTheTable). I unchanged is the spec's own choice (D11). -/
def Obligations.LoadRegisters : Prop :=
  ∀ (x : Reg) (s : State), dataAddress s x.val < 0x1000 →
    ∃ t, exec (.ldVxMem x) s = .next t ∧ (∀ k : Reg, k ≤ x → t.getV k = s.mem.read (dataAddress s k.val)) ∧
      t.pc = s.pc + 2 ∧ WritesAtMost { regs := (List.finRange 16).filter (· ≤ x) } s t

/-- The round trip of 95_test_vectors.md S7: registers stored by Fx55 come back by Fx65 from the same I, whatever happened to
them in between. -/
def Obligations.StoredRegistersLoadBack : Prop :=
  ∀ (x : Reg) (s t u : State), s.mem.wf = true → dataAddress s x.val < 0x1000 → exec (.ldMemVx x) s = .next t →
    u.mem = t.mem → u.idx = s.idx → ∃ w, exec (.ldVxMem x) u = .next w ∧ ∀ k : Reg, k ≤ x → w.getV k = s.getV k

/-- A word stored by Fx55 at the address PC then has is the word the next step runs (20_memory.md R62, which the spec derives):
no barrier, no delay. -/
def Obligations.StoredInstructionIsFetched : Prop :=
  ∀ (x k l : Reg) (s t : State) (i : Instr), s.mem.wf = true → running s → dataAddress s x.val < 0x1000 →
    exec (.ldMemVx x) s = .next t → l.val = k.val + 1 → l ≤ x → t.pc.toNat = dataAddress s k.val →
    decode (s.getV k ++ s.getV l) = .ok i → step t = exec i t.decrementTimers

/-- A byte stored by Fx33 or Fx55 is the byte fetched from its address at any later tick, with no other store to that address in
between (20_memory.md R62, which the spec derives): the high byte of the word at PC, or the low byte where the address is PC + 1;
and a tick of a running block runs that word. The bound of the store is the spec's own choice (D2). -/
def Obligations.StoredBytesAreFetchedLater : Prop :=
  ∀ (run : Nat → State) (j a : Nat) (b : Byte), (run 0).mem.wf = true → running (run 0) → fetchable (run 0) →
    storesByte (run 0) a b → (∀ k ≤ j, step (run k) = .next (run (k + 1))) →
    (∀ k, 1 ≤ k → k ≤ j → ∀ c, ¬storesByte (run k) a c) →
    (run (j + 1)).mem.read a = b ∧
      ((run (j + 1)).pc.toNat = a → (wordAtPc (run (j + 1))).toNat / 256 = b.toNat) ∧
      ((run (j + 1)).pc.toNat + 1 = a → (wordAtPc (run (j + 1))).toNat % 256 = b.toNat) ∧
      ∀ i, running (run (j + 1)) → fetchable (run (j + 1)) → decode (wordAtPc (run (j + 1))) = .ok i →
        step (run (j + 1)) = exec i (run (j + 1)).decrementTimers

/-! ### Timers -/

/-- LD Vx, DT and LD DT, Vx (44_timers.md R201, R202): the delay timer read into Vx and unchanged, or loaded from Vx. And LD ST,
Vx: the sound timer loaded from Vx, with `audio_on` following it at once (of R203). -/
def Obligations.TimerInstructions : Prop :=
  ∀ x : Reg,
    decode (0xF#4 ++ BitVec.ofNat 4 x.val ++ 0x07#8) = .ok (.ldVxDt x) ∧
    decode (0xF#4 ++ BitVec.ofNat 4 x.val ++ 0x15#8) = .ok (.ldDtVx x) ∧
    decode (0xF#4 ++ BitVec.ofNat 4 x.val ++ 0x18#8) = .ok (.ldStVx x) ∧
    ∀ s : State,
      (∃ t, exec (.ldVxDt x) s = .next t ∧ t.getV x = s.dt ∧ t.pc = s.pc + 2 ∧ WritesAtMost { regs := [x] } s t) ∧
      (∃ t, exec (.ldDtVx x) s = .next t ∧ t.dt = s.getV x ∧ t.pc = s.pc + 2 ∧
        WritesAtMost { delayTimer := true } s t) ∧
      (∃ t, exec (.ldStVx x) s = .next t ∧ t.st = s.getV x ∧ (audioOnOut t = true ↔ s.getV x ≠ 0) ∧ t.pc = s.pc + 2 ∧
        WritesAtMost { soundTimer := true } s t)

/-! ### Display -/

/-- CLS (45_display.md R212): its one word, and every framebuffer byte 0x00, VF and memory unchanged. -/
def Obligations.ClearScreen : Prop :=
  (∀ op : Word, decode op = .ok .cls ↔ op = 0x00E0#16) ∧
  ∀ s : State, ∃ t, exec .cls s = .next t ∧ (∀ k, fbRead k t = 0x00#8) ∧ t.pc = s.pc + 2 ∧
    WritesAtMost { framebuffer := true } s t

/-- CLRFB n (45_display.md R214): its encoding, the first n bytes 0x00 and the others as before, which are the first 8n pixels in
row-major order; nothing with n = 0; no scrolling. -/
def Obligations.ClearFirstBytes : Prop :=
  ∀ n : Count, decode (0x00C#12 ++ BitVec.ofNat 4 n.val) = .ok (.clrfbN n) ∧
    ∀ s : State, ∃ t, exec (.clrfbN n) s = .next t ∧
      (∀ k, fbRead k t = if k.val < n.val then 0x00#8 else fbRead k s) ∧
      (∀ px py, pixel t.fb px py = if py.val * 64 + px.val < 8 * n.val then false else pixel s.fb px py) ∧
      t.pc = s.pc + 2 ∧ WritesAtMost { framebuffer := true } s t

/-- DRW Vx, Vy, n within memory (45_display.md R220 to R224): a pixel under a set sprite bit is toggled, every other pixel stays,
and VF is 1 exactly if a set pixel was toggled. With n = 0 nothing is read and VF is 0. The origin, the bit order and the reading
of VF as a coordinate before it is cleared are the spec's own choice (D7, D8, D9, D10). -/
def Obligations.DrawXorsSprite : Prop :=
  ∀ (x y : Reg) (n : Count) (s : State), n = 0 ∨ s.idx.toNat + n.val ≤ 0x1000 →
    ∃ t, exec (.drwVxVyN x y n) s = .next t ∧
      (∀ px py, spriteTouches s x y n px py → pixel t.fb px py = !pixel s.fb px py) ∧
      (∀ px py, ¬spriteTouches s x y n px py → pixel t.fb px py = pixel s.fb px py) ∧
      ((∃ px py, spriteTouches s x y n px py ∧ pixel s.fb px py = true) → t.getV vF = 1) ∧
      ((¬∃ px py, spriteTouches s x y n px py ∧ pixel s.fb px py = true) → t.getV vF = 0) ∧
      t.pc = s.pc + 2 ∧ WritesAtMost { regs := [vF], framebuffer := true } s t

/-- Drawing the same sprite at the same origin twice restores the framebuffer (45_display.md R225, which the spec derives). The
second draw's VF follows R220: it is 1 exactly if some pixel of the sprite was off before the first draw; so, where the first
draw met no set pixel, exactly if the sprite has a set bit. R225 says 1 for every sprite with a set bit; R220 does not give that
where every pixel of the sprite was on before the first draw (log entry 8). -/
def Obligations.DrawTwiceRestores : Prop :=
  ∀ (x y : Reg) (n : Count) (s t u : State), n = 0 ∨ s.idx.toNat + n.val ≤ 0x1000 →
    exec (.drwVxVyN x y n) s = .next t → u.fb = t.fb → u.mem = s.mem → u.idx = s.idx →
    u.getV x = s.getV x → u.getV y = s.getV y →
    ∃ w, exec (.drwVxVyN x y n) u = .next w ∧ w.fb = s.fb ∧
      (w.getV vF = 1 ↔ ∃ px py, spriteTouches s x y n px py ∧ pixel s.fb px py = false) ∧
      ((∀ px py, spriteTouches s x y n px py → pixel s.fb px py = false) →
        (w.getV vF = 1 ↔ ∃ r < n.val, s.mem.read (s.idx.toNat + r) ≠ 0x00#8))

/-! ### Keypad -/

/-- SKP Vx and SKNP Vx with a key number (46_keypad.md R232, R233): one instruction passed over exactly when the key is pressed,
or not pressed. A value above 0x0F faults (FaultsAreExactlyTheTable). That key k is bit k is the spec's own choice (D22). -/
def Obligations.KeySkips : Prop :=
  ∀ (x : Reg) (s : State), (s.getV x).toNat ≤ 0x0F →
    (∃ t, exec (.skpVx x) s = .next t ∧
      t.pc = (if s.keysCur.getLsbD (s.getV x).toNat then s.pc + 4 else s.pc + 2) ∧ WritesAtMost {} s t) ∧
    (∃ t, exec (.sknpVx x) s = .next t ∧
      t.pc = (if s.keysCur.getLsbD (s.getV x).toNat then s.pc + 2 else s.pc + 4) ∧ WritesAtMost {} s t)

/-- LD Vx, K (46_keypad.md R240, R241): when the mask has changed and is not zero, Vx is the lowest pressed key and PC advances;
else PC stays at the instruction and nothing but KEYS_PREV changes. What counts as changed is the spec's own choice (D27). -/
def Obligations.KeyWaitTakesLowestKey : Prop :=
  ∀ (x : Reg) (s : State),
    (s.keysCur ≠ s.keysPrev → s.keysCur ≠ 0x0000#16 → ∃ t, exec (.ldVxK x) s = .next t ∧
      s.keysCur.getLsbD (t.getV x).toNat = true ∧ (∀ j < (t.getV x).toNat, s.keysCur.getLsbD j = false) ∧
      t.pc = s.pc + 2 ∧ WritesAtMost { regs := [x] } s t) ∧
    (s.keysCur = s.keysPrev ∨ s.keysCur = 0x0000#16 → ∃ t, exec (.ldVxK x) s = .next t ∧ t.pc = s.pc ∧
      WritesAtMost {} s t)

/-! ### The host's operations -/

/-- halt, set_key_mask, key_down and key_up (60_exceptions.md R270, R273, R274, R275): the field each names, and nothing else. A
second halt changes nothing. -/
def Obligations.HaltAndKeyOperations : Prop :=
  ∀ (s : State) (mask : Word),
    perform .halt s = .next { s with halted := true } ∧
    performAll [.halt, .halt] s = perform .halt s ∧
    perform (.setKeyMask mask) s = .next { s with keysPrev := s.keysCur, keysCur := mask } ∧
    (∃ t, perform (.keyDown mask) s = .next t ∧ t = { s with keysCur := t.keysCur } ∧
      ∀ k, t.keysCur.getLsbD k = (s.keysCur.getLsbD k || mask.getLsbD k)) ∧
    (∃ t, perform (.keyUp mask) s = .next t ∧ t = { s with keysCur := t.keysCur } ∧
      ∀ k, t.keysCur.getLsbD k = (s.keysCur.getLsbD k && !mask.getLsbD k))

/-- reset (70_reset_and_hazards.md R290, R291; 10_state.md R37): every element at its reset value. The values of I, the key masks,
SP and the fault register are the spec's own choice (D4, D5, D18); the model's own started flag is set, and its draw counter and
report stream go on (log entries 2, 3, 4). State.reset is such a state. -/
def Obligations.ResetClearsEverything : Prop :=
  (∀ s : State, ∃ t, perform .reset s = .next t ∧ (∀ a, t.mem.read a = 0x00#8) ∧ (∀ r, t.getV r = 0x00#8) ∧
    t.idx = 0x0000#16 ∧ t.pc = 0x0200#16 ∧ (∀ k : Fin 16, t.stack[k.val] = 0x0000#16) ∧ t.sp = 0 ∧
    t.dt = 0x00#8 ∧ t.st = 0x00#8 ∧ (∀ k, fbRead k t = 0x00#8) ∧ t.keysCur = 0x0000#16 ∧ t.keysPrev = 0x0000#16 ∧
    t.halted = false ∧ t.faultCause = .noFault ∧ t.faultInfo = 0x0000#16 ∧
    t.started = true ∧ t.draws = s.draws ∧ t.reports = s.reports) ∧
  perform .reset State.reset = .next State.reset

/-- A load_program of 1 to 3584 bytes (70_reset_and_hazards.md R294): the program at 0x200, every other cell 0x00, and every other
element of the block as after reset. -/
def Obligations.LoadPlacesProgram : Prop :=
  ∀ (bytes : List Byte) (s r : State), 1 ≤ bytes.length → bytes.length ≤ 3584 → perform .reset s = .next r →
    ∃ t, perform (.loadProgram bytes) s = .next t ∧
      (∀ j, ∀ h : j < bytes.length, t.mem.read (0x200 + j) = bytes[j]) ∧
      (∀ a, a < 0x200 ∨ 0x200 + bytes.length ≤ a → t.mem.read a = 0x00#8) ∧
      t = { r with mem := t.mem }

/-- A load_program of 0 or of more than 3584 bytes is rejected: one report, and no state of the block changes, not even by a reset
(70_reset_and_hazards.md R293; the spec's own choice D19; the report stream is log entry 3). -/
def Obligations.BadLoadIsRejected : Prop :=
  ∀ (bytes : List Byte) (s : State), bytes.length = 0 ∨ 3584 < bytes.length →
    perform (.loadProgram bytes) s = .next { s with reports := s.reports ++ [.loadRejected bytes.length] }

/-- Five outputs (60_exceptions.md R256, R276, R277; the host reads no DT, R278): the sound timer, audio_on exactly when it is not zero, the halted flag, the
fault register, and the framebuffer bytes, in which pixel (px, py) is bit 7 - (px mod 8) of byte py * 8 + px / 8 (45_display.md
R210; that layout and the fault output are the spec's own choice, D10 and D5). -/
def Obligations.OutputsShowState : Prop :=
  ∀ s : State, soundTimerOut s = s.st ∧ (audioOnOut s = true ↔ s.st ≠ 0x00#8) ∧ haltedOut s = s.halted ∧
    faultOut s = (s.faultCause.code, s.faultInfo) ∧
    ∀ (px : Fin 64) (py : Fin 32) (k : Fin 256), k.val = py.val * 8 + px.val / 8 →
      pixel s.fb px py = (fbRead k s).getLsbD (7 - px.val % 8)
end

