-- ==== Sys2Proof/Laws/Decode.lean ====
section
/-! SUPPORT. The fields of an opcode as arithmetic on its value, the fields of the words the encoder builds, and a word as its
two bytes (30_encoding.md R71, 20_memory.md R53). -/

namespace Sys2Proof

/-! ### Fields -/

theorem nibbleAt_val (op : Word) (lo : Nat) : (nibbleAt op lo).val = op.toNat / 2 ^ lo % 16 := by
  simp only [nibbleAt, BitVec.extractLsb'_toNat, Nat.shiftRight_eq_div_pow]

theorem fieldH_val (op : Word) : (fieldH op).val = op.toNat / 0x1000 := by
  have h1 := nibbleAt_val op 12
  have h2 := op.isLt
  unfold fieldH
  omega

theorem fieldX_val (op : Word) : (fieldX op).val = op.toNat / 0x100 % 16 := nibbleAt_val op 8

theorem fieldY_val (op : Word) : (fieldY op).val = op.toNat / 0x10 % 16 := nibbleAt_val op 4

theorem fieldN_val (op : Word) : (fieldN op).val = op.toNat % 16 := by
  have := nibbleAt_val op 0
  unfold fieldN
  omega

theorem fieldNN_toNat (op : Word) : (fieldNN op).toNat = op.toNat % 0x100 := by
  simp only [fieldNN, BitVec.extractLsb'_toNat, Nat.shiftRight_zero]

theorem fieldNNN_toNat (op : Word) : (fieldNNN op).toNat = op.toNat % 0x1000 := by
  simp only [fieldNNN, BitVec.extractLsb'_toNat, Nat.shiftRight_zero]

/-- The upper 12 bits, which select CLRFB in family 0x0. -/
theorem upper12_toNat (op : Word) : (op.extractLsb' 4 12).toNat = op.toNat / 0x10 := by
  have := op.isLt
  simp only [BitVec.extractLsb'_toNat, Nat.shiftRight_eq_div_pow]
  omega

/-! ### The words of the encoder -/

theorem wordXYN_toNat {h : Nat} (hh : h < 16) (x y n : Fin 16) :
    (wordXYN h x y n).toNat = h * 0x1000 + x.val * 0x100 + y.val * 0x10 + n.val := by
  simp only [wordXYN, BitVec.toNat_ofNat]
  omega

theorem wordXNN_toNat {h : Nat} (hh : h < 16) (x : Fin 16) (nn : Byte) :
    (wordXNN h x nn).toNat = h * 0x1000 + x.val * 0x100 + nn.toNat := by
  have := nn.isLt
  simp only [wordXNN, BitVec.toNat_ofNat]
  omega

theorem wordNNN_toNat {h : Nat} (hh : h < 16) (nnn : Addr12) : (wordNNN h nnn).toNat = h * 0x1000 + nnn.toNat := by
  have := nnn.isLt
  simp only [wordNNN, BitVec.toNat_ofNat]
  omega

theorem fieldH_wordXYN {h : Nat} (hh : h < 16) (x y n : Fin 16) : fieldH (wordXYN h x y n) = ⟨h, hh⟩ := by
  apply Fin.ext; rw [fieldH_val, wordXYN_toNat hh]; change _ = h; omega

theorem fieldX_wordXYN {h : Nat} (hh : h < 16) (x y n : Fin 16) : fieldX (wordXYN h x y n) = x := by
  apply Fin.ext; rw [fieldX_val, wordXYN_toNat hh]; omega

theorem fieldY_wordXYN {h : Nat} (hh : h < 16) (x y n : Fin 16) : fieldY (wordXYN h x y n) = y := by
  apply Fin.ext; rw [fieldY_val, wordXYN_toNat hh]; omega

theorem fieldN_wordXYN {h : Nat} (hh : h < 16) (x y n : Fin 16) : fieldN (wordXYN h x y n) = n := by
  apply Fin.ext; rw [fieldN_val, wordXYN_toNat hh]; omega

theorem fieldH_wordXNN {h : Nat} (hh : h < 16) (x : Fin 16) (nn : Byte) : fieldH (wordXNN h x nn) = ⟨h, hh⟩ := by
  have := nn.isLt
  apply Fin.ext; rw [fieldH_val, wordXNN_toNat hh]; change _ = h; omega

theorem fieldX_wordXNN {h : Nat} (hh : h < 16) (x : Fin 16) (nn : Byte) : fieldX (wordXNN h x nn) = x := by
  have := nn.isLt
  apply Fin.ext; rw [fieldX_val, wordXNN_toNat hh]; omega

theorem fieldNN_wordXNN {h : Nat} (hh : h < 16) (x : Fin 16) (nn : Byte) : fieldNN (wordXNN h x nn) = nn := by
  have := nn.isLt
  apply BitVec.eq_of_toNat_eq; rw [fieldNN_toNat, wordXNN_toNat hh]; omega

theorem fieldH_wordNNN {h : Nat} (hh : h < 16) (nnn : Addr12) : fieldH (wordNNN h nnn) = ⟨h, hh⟩ := by
  have := nnn.isLt
  apply Fin.ext; rw [fieldH_val, wordNNN_toNat hh]; change _ = h; omega

theorem fieldNNN_wordNNN {h : Nat} (hh : h < 16) (nnn : Addr12) : fieldNNN (wordNNN h nnn) = nnn := by
  have := nnn.isLt
  apply BitVec.eq_of_toNat_eq; rw [fieldNNN_toNat, wordNNN_toNat hh]; omega

/-! ### Decoding by families (30_encoding.md R73) -/

/-- The sixteen families. -/
theorem fieldH_cases (op : Word) : fieldH op = 0x0 ∨ fieldH op = 0x1 ∨ fieldH op = 0x2 ∨ fieldH op = 0x3 ∨ fieldH op = 0x4 ∨
    fieldH op = 0x5 ∨ fieldH op = 0x6 ∨ fieldH op = 0x7 ∨ fieldH op = 0x8 ∨ fieldH op = 0x9 ∨ fieldH op = 0xA ∨
    fieldH op = 0xB ∨ fieldH op = 0xC ∨ fieldH op = 0xD ∨ fieldH op = 0xE ∨ fieldH op = 0xF := by
  generalize fieldH op = h
  revert h
  decide

theorem decode_family0 {op : Word} (h : fieldH op = 0x0) : decode op = decodeFamily0 op := by
  simp [decode, h]
theorem decode_family1 {op : Word} (h : fieldH op = 0x1) : decode op = .ok (.jp (fieldNNN op)) := by
  simp [decode, h]
theorem decode_family2 {op : Word} (h : fieldH op = 0x2) : decode op = .ok (.call (fieldNNN op)) := by
  simp [decode, h]
theorem decode_family3 {op : Word} (h : fieldH op = 0x3) : decode op = .ok (.seVxNn (fieldX op) (fieldNN op)) := by
  simp [decode, h]
theorem decode_family4 {op : Word} (h : fieldH op = 0x4) : decode op = .ok (.sneVxNn (fieldX op) (fieldNN op)) := by
  simp [decode, h]
theorem decode_family5 {op : Word} (h : fieldH op = 0x5) : decode op = decodeFamily5 op := by
  simp [decode, h]
theorem decode_family6 {op : Word} (h : fieldH op = 0x6) : decode op = .ok (.ldVxNn (fieldX op) (fieldNN op)) := by
  simp [decode, h]
theorem decode_family7 {op : Word} (h : fieldH op = 0x7) : decode op = .ok (.addVxNn (fieldX op) (fieldNN op)) := by
  simp [decode, h]
theorem decode_family8 {op : Word} (h : fieldH op = 0x8) : decode op = decodeFamily8 op := by
  simp [decode, h]
theorem decode_family9 {op : Word} (h : fieldH op = 0x9) : decode op = decodeFamily9 op := by
  simp [decode, h]
theorem decode_familyA {op : Word} (h : fieldH op = 0xA) : decode op = .ok (.ldINnn (fieldNNN op)) := by
  simp [decode, h]
theorem decode_familyB {op : Word} (h : fieldH op = 0xB) : decode op = .ok (.jpV0Nnn (fieldNNN op)) := by
  simp [decode, h]
theorem decode_familyC {op : Word} (h : fieldH op = 0xC) : decode op = .ok (.rndVxNn (fieldX op) (fieldNN op)) := by
  simp [decode, h]
theorem decode_familyD {op : Word} (h : fieldH op = 0xD) : decode op = .ok (.drwVxVyN (fieldX op) (fieldY op) (fieldN op)) := by
  simp [decode, h]
theorem decode_familyE {op : Word} (h : fieldH op = 0xE) : decode op = decodeFamilyE op := by
  simp [decode, h]
theorem decode_familyF {op : Word} (h : fieldH op = 0xF) : decode op = decodeFamilyF op := by
  simp [decode, h]

/-- All a decoded word of family 0x0 can be. -/
theorem decodeFamily0_cases (op : Word) :
    (op = 0x00E0#16 ∧ decodeFamily0 op = .ok .cls) ∨ (op = 0x00EE#16 ∧ decodeFamily0 op = .ok .ret) ∨
    (op.toNat / 0x10 = 0x00C ∧ decodeFamily0 op = .ok (.clrfbN (fieldN op))) ∨
    (op.toNat ≠ 0x00E0 ∧ op.toNat ≠ 0x00EE ∧ op.toNat / 0x10 ≠ 0x00C ∧ decodeFamily0 op = .ok (.sysNnn (fieldNNN op))) := by
  have hu := upper12_toNat op
  unfold decodeFamily0
  split
  · exact .inl ⟨‹_›, rfl⟩
  · split
    · exact .inr (.inl ⟨‹_›, rfl⟩)
    · split
      · rename_i h
        rw [h] at hu
        exact .inr (.inr (.inl ⟨hu.symm, rfl⟩))
      · rename_i h1 h2 h3
        refine .inr (.inr (.inr ⟨fun h => h1 ?_, fun h => h2 ?_, fun h => h3 ?_, rfl⟩)) <;> apply BitVec.eq_of_toNat_eq
        · exact h
        · exact h
        · rw [hu]; exact h

/-! ### Bytes -/

/-- A word is the big-endian join of its bytes in memory order (20_memory.md R53). -/
@[simp] theorem opcodeOfBytes_bytesOfWord (op : Word) : opcodeOfBytes (bytesOfWord op).1 (bytesOfWord op).2 = op := by
  have := op.isLt
  apply BitVec.eq_of_toNat_eq
  simp only [opcodeOfBytes, bytesOfWord, BitVec.toNat_append, BitVec.extractLsb'_toNat, Nat.shiftRight_zero]
  rw [← Nat.shiftLeft_add_eq_or_of_lt (Nat.mod_lt _ (by decide))]
  simp only [Nat.shiftRight_eq_div_pow, Nat.shiftLeft_eq]
  omega

end Sys2Proof
end

