-- ==== Sys2Proof/Laws/Display.lean ====
section
/-! SUPPORT. The framebuffer controller pixel by pixel: what toggling a pixel, clearing bytes and drawing a sprite do to every
pixel, and when a draw collides (45_display.md R210, R214, R220, R223). -/

namespace Sys2Proof.Machine

/-! ### Pixels -/

/-- Two pixels share a byte and a bit exactly when they are the same pixel (45_display.md R210). -/
theorem byteIndex_bitIndex_inj {px qx : Fin 64} {py qy : Fin 32}
    (hbyte : (byteIndex px py).val = (byteIndex qx qy).val) (hbit : bitIndex px = bitIndex qx) : px = qx ∧ py = qy := by
  simp only [byteIndex, bitIndex] at hbyte hbit
  constructor <;> apply Fin.ext <;> omega

theorem getLsbD_oneShifted (k j : Nat) (hk : k < 8) : ((0x01#8 : Byte) <<< k).getLsbD j = decide (j = k) := by
  rw [BitVec.getLsbD_shiftLeft, BitVec.getLsbD_one]
  by_cases hj : j = k
  · subst hj; simp [hk]
  · simp [hj]; omega

/-- Toggling changes one pixel. -/
theorem pixel_togglePixel (fb : Framebuffer) (px qx : Fin 64) (py qy : Fin 32) :
    pixel (togglePixel fb px py) qx qy = (pixel fb qx qy ^^ decide (qx = px ∧ qy = py)) := by
  have hb : bitIndex px < 8 := by simp only [bitIndex]; omega
  unfold pixel togglePixel
  rw [Vector.getElem_set]
  split
  · rename_i hbyte
    rw [BitVec.getLsbD_xor, getLsbD_oneShifted _ _ hb]
    have : decide (bitIndex qx = bitIndex px) = decide (qx = px ∧ qy = py) := by
      rw [decide_eq_decide]
      constructor
      · intro h
        obtain ⟨h1, h2⟩ := byteIndex_bitIndex_inj hbyte h.symm
        exact ⟨h1.symm, h2.symm⟩
      · rintro ⟨rfl, -⟩; rfl
    rw [this]
    simp only [hbyte]
  · rename_i hbyte
    have : ¬(qx = px ∧ qy = py) := by rintro ⟨rfl, rfl⟩; exact hbyte rfl
    rw [decide_eq_false this, Bool.xor_false]

/-! ### Clearing -/

theorem clearFirst_getElem (fb : Framebuffer) (n k : Nat) (hk : k < 256) :
    (clearFirst fb n)[k] = if k < n then 0x00#8 else fb[k] := by
  induction n with
  | zero => rfl
  | succ n ih =>
    unfold clearFirst
    rw [Vector.getElem_setIfInBounds]
    split
    · subst k; rw [if_pos (Nat.lt_succ_self n)]
    · rw [ih]; exact if_congr (by omega) rfl rfl

/-! ### The sprite draw -/

/-- Whether some set bit of a sprite row, among the columns from `c` on, lands on column `qx`. -/
def columnCovered (row : Byte) (cx c count : Nat) (qx : Fin 64) : Prop :=
  ∃ k, c ≤ k ∧ k < c + count ∧ spriteBit row k = true ∧ wrapColumn cx k = qx

/-- Whether some set bit of a sprite lands on a pixel, the first row of the list being row `r`. -/
def spriteCovered (cx cy r : Nat) (rows : List Byte) (qx : Fin 64) (qy : Fin 32) : Prop :=
  ∃ k, ∃ h : k < rows.length, wrapRow cy (r + k) = qy ∧ columnCovered rows[k] cx 0 8 qx

/-- No two of a sprite's 8 columns coincide (45_display.md R223). -/
theorem wrapColumn_inj {cx j k : Nat} (hj : j < 8) (hk : k < 8) (h : wrapColumn cx j = wrapColumn cx k) : j = k := by
  have := Fin.ext_iff.mp h
  simp only [wrapColumn, Fin.val_ofNat] at this
  omega

/-- No two of a sprite's at most 15 rows coincide (45_display.md R223). -/
theorem wrapRow_inj {cy j k : Nat} (hjk : j < k) (hk : k < j + 32) : wrapRow cy j ≠ wrapRow cy k := by
  intro h
  have := Fin.ext_iff.mp h
  simp only [wrapRow, Fin.val_ofNat] at this
  omega

/-- What drawing some columns of a row does to every pixel, and when it collides. -/
theorem drawColumns_spec (row : Byte) (cx : Nat) (py : Fin 32) (c count : Nat) (hc : c + count ≤ 8) (d : DrawState) :
    (∀ qx qy, (qy = py ∧ columnCovered row cx c count qx) →
      pixel (drawColumns row cx py c count d).fb qx qy = !pixel d.fb qx qy) ∧
    (∀ qx qy, ¬(qy = py ∧ columnCovered row cx c count qx) →
      pixel (drawColumns row cx py c count d).fb qx qy = pixel d.fb qx qy) ∧
    ((drawColumns row cx py c count d).collision = true ↔
      d.collision = true ∨ ∃ qx, columnCovered row cx c count qx ∧ pixel d.fb qx py = true) := by
  induction count generalizing c d with
  | zero =>
    have hno : ∀ qx, ¬columnCovered row cx c 0 qx := by rintro qx ⟨k, h1, h2, -⟩; omega
    refine ⟨fun qx qy h => absurd h.2 (hno qx), fun _ _ _ => rfl, ?_⟩
    simp [drawColumns, hno]
  | succ count ih =>
    have hsplit : ∀ qx, columnCovered row cx c (count + 1) qx ↔
        (spriteBit row c = true ∧ wrapColumn cx c = qx) ∨ columnCovered row cx (c + 1) count qx := by
      intro qx
      constructor
      · rintro ⟨k, h1, h2, h3, h4⟩
        by_cases hk : k = c
        · subst hk; exact .inl ⟨h3, h4⟩
        · exact .inr ⟨k, by omega, by omega, h3, h4⟩
      · rintro (⟨h3, h4⟩ | ⟨k, h1, h2, h3, h4⟩)
        · exact ⟨c, Nat.le_refl c, by omega, h3, h4⟩
        · exact ⟨k, by omega, by omega, h3, h4⟩
    have hapart : ∀ qx, wrapColumn cx c = qx → ¬columnCovered row cx (c + 1) count qx := by
      rintro qx rfl ⟨k, h1, h2, -, h4⟩
      have := wrapColumn_inj (by omega) (by omega) h4
      omega
    unfold drawColumns
    by_cases hbit : spriteBit row c = true
    · rw [if_pos hbit]
      obtain ⟨ih1, ih2, ih3⟩ := ih (c + 1) (by omega) (drawPixel d (wrapColumn cx c) py)
      have hpix : ∀ qx qy, pixel (drawPixel d (wrapColumn cx c) py).fb qx qy
          = (pixel d.fb qx qy ^^ decide (qx = wrapColumn cx c ∧ qy = py)) := fun qx qy => pixel_togglePixel _ _ _ _ _
      refine ⟨fun qx qy h => ?_, fun qx qy h => ?_, ?_⟩
      · obtain ⟨rfl, hcov⟩ := h
        rcases (hsplit qx).mp hcov with ⟨-, hq⟩ | hcov
        · rw [ih2 qx qy fun h => hapart qx hq h.2, hpix, decide_eq_true ⟨hq.symm, rfl⟩, Bool.xor_true]
        · rw [ih1 qx qy ⟨rfl, hcov⟩, hpix, decide_eq_false fun h => hapart qx h.1.symm hcov, Bool.xor_false]
      · rw [ih2 qx qy fun h' => h ⟨h'.1, (hsplit qx).mpr (.inr h'.2)⟩, hpix,
          decide_eq_false fun h' => h ⟨h'.2, (hsplit qx).mpr (.inl ⟨hbit, h'.1.symm⟩)⟩, Bool.xor_false]
      · rw [ih3]
        change (d.collision || pixel d.fb (wrapColumn cx c) py) = true ∨ _ ↔ _
        rw [Bool.or_eq_true, or_assoc]
        refine or_congr Iff.rfl ⟨?_, ?_⟩
        · rintro (h | ⟨qx, h1, h2⟩)
          · exact ⟨_, (hsplit _).mpr (.inl ⟨hbit, rfl⟩), h⟩
          · refine ⟨qx, (hsplit qx).mpr (.inr h1), ?_⟩
            rwa [hpix, decide_eq_false fun h => hapart qx h.1.symm h1, Bool.xor_false] at h2
        · rintro ⟨qx, h1, h2⟩
          rcases (hsplit qx).mp h1 with ⟨-, rfl⟩ | h1
          · exact .inl h2
          · refine .inr ⟨qx, h1, ?_⟩
            rwa [hpix, decide_eq_false fun h => hapart qx h.1.symm h1, Bool.xor_false]
    · rw [if_neg hbit]
      obtain ⟨ih1, ih2, ih3⟩ := ih (c + 1) (by omega) d
      have hsame : ∀ qx, columnCovered row cx c (count + 1) qx ↔ columnCovered row cx (c + 1) count qx := fun qx =>
        (hsplit qx).trans (or_iff_right fun h => hbit h.1)
      simp only [hsame]
      exact ⟨ih1, ih2, ih3⟩

/-- What drawing the rows of a sprite does to every pixel, and when it collides. -/
theorem drawRows_spec (cx cy r : Nat) (rows : List Byte) (hlen : rows.length < 32) (d : DrawState) :
    (∀ qx qy, spriteCovered cx cy r rows qx qy → pixel (drawRows cx cy r rows d).fb qx qy = !pixel d.fb qx qy) ∧
    (∀ qx qy, ¬spriteCovered cx cy r rows qx qy → pixel (drawRows cx cy r rows d).fb qx qy = pixel d.fb qx qy) ∧
    ((drawRows cx cy r rows d).collision = true ↔
      d.collision = true ∨ ∃ qx qy, spriteCovered cx cy r rows qx qy ∧ pixel d.fb qx qy = true) := by
  induction rows generalizing r d with
  | nil =>
    have hno : ∀ qx qy, ¬spriteCovered cx cy r [] qx qy := by rintro qx qy ⟨k, h, -⟩; exact absurd h (Nat.not_lt_zero k)
    refine ⟨fun qx qy h => absurd h (hno qx qy), fun _ _ _ => rfl, ?_⟩
    simp [drawRows, hno]
  | cons row rows ih =>
    rw [List.length_cons] at hlen
    have hsplit : ∀ qx qy, spriteCovered cx cy r (row :: rows) qx qy ↔
        (qy = wrapRow cy r ∧ columnCovered row cx 0 8 qx) ∨ spriteCovered cx cy (r + 1) rows qx qy := by
      intro qx qy
      constructor
      · rintro ⟨k, hk, h1, h2⟩
        cases k with
        | zero => exact .inl ⟨h1.symm, h2⟩
        | succ k => exact .inr ⟨k, Nat.lt_of_succ_lt_succ hk, by rwa [Nat.add_assoc, Nat.add_comm 1 k], h2⟩
      · rintro (⟨h1, h2⟩ | ⟨k, hk, h1, h2⟩)
        · exact ⟨0, Nat.zero_lt_succ _, h1.symm, h2⟩
        · exact ⟨k + 1, Nat.succ_lt_succ hk, by rwa [Nat.add_assoc, Nat.add_comm 1 k] at h1, h2⟩
    have hapart : ∀ qx qy, qy = wrapRow cy r → ¬spriteCovered cx cy (r + 1) rows qx qy := by
      rintro qx qy rfl ⟨k, hk, h1, -⟩
      exact wrapRow_inj (by omega) (by omega) h1.symm
    obtain ⟨c1, c2, c3⟩ := drawColumns_spec row cx (wrapRow cy r) 0 8 (Nat.le_refl 8) d
    obtain ⟨ih1, ih2, ih3⟩ := ih (r + 1) (by omega) (drawColumns row cx (wrapRow cy r) 0 8 d)
    unfold drawRows
    refine ⟨fun qx qy h => ?_, fun qx qy h => ?_, ?_⟩
    · rcases (hsplit qx qy).mp h with hrow | hrest
      · rw [ih2 qx qy (hapart qx qy hrow.1), c1 qx qy hrow]
      · rw [ih1 qx qy hrest, c2 qx qy fun h' => hapart qx qy h'.1 hrest]
    · rw [ih2 qx qy fun h' => h ((hsplit qx qy).mpr (.inr h')), c2 qx qy fun h' => h ((hsplit qx qy).mpr (.inl h'))]
    · rw [ih3, c3, or_assoc]
      refine or_congr Iff.rfl ⟨?_, ?_⟩
      · rintro (⟨qx, h1, h2⟩ | ⟨qx, qy, h1, h2⟩)
        · exact ⟨qx, _, (hsplit _ _).mpr (.inl ⟨rfl, h1⟩), h2⟩
        · rw [c2 qx qy fun h' => hapart qx qy h'.1 h1] at h2
          exact ⟨qx, qy, (hsplit qx qy).mpr (.inr h1), h2⟩
      · rintro ⟨qx, qy, h1, h2⟩
        rcases (hsplit qx qy).mp h1 with ⟨rfl, hcol⟩ | hrest
        · exact .inl ⟨qx, hcol, h2⟩
        · refine .inr ⟨qx, qy, hrest, ?_⟩
          rwa [c2 qx qy fun h' => hapart qx qy h'.1 hrest]

/-- A framebuffer is its pixels (45_display.md R210). -/
theorem framebuffer_ext {fb fb' : Framebuffer} (h : ∀ px py, pixel fb px py = pixel fb' px py) : fb = fb' := by
  apply Vector.ext
  intro k hk
  refine BitVec.eq_of_getLsbD_eq fun j hj => ?_
  have := h ⟨k % 8 * 8 + (7 - j), by omega⟩ ⟨k / 8, by omega⟩
  have hbyte : (byteIndex ⟨k % 8 * 8 + (7 - j), by omega⟩ ⟨k / 8, by omega⟩).val = k := by
    simp only [byteIndex]; omega
  have hbit : bitIndex ⟨k % 8 * 8 + (7 - j), by omega⟩ = j := by
    simp only [bitIndex]; omega
  simp only [pixel, hbyte, hbit] at this
  exact this

end Sys2Proof.Machine
end

