-- ==== Sys2Proof/Laws/Memory.lean ====
section
/-! SUPPORT. The laws of the memory: reading after a write, the canonical form and its extensionality, and one spec lemma for
each operation that makes several accesses. -/

namespace Sys2Proof.Machine

/-! ### Reading -/

@[simp] theorem Memory.read_nil (a : Nat) : Memory.read [] a = Memory.unlisted := rfl

theorem Memory.read_cons (a' : Nat) (b : Byte) (m : Memory) (a : Nat) :
    Memory.read ((a', b) :: m) a = if a' = a then b else Memory.read m a := rfl

theorem Memory.wfFrom_cons {lowest a : Nat} {b : Byte} {m : Memory} :
    Memory.wfFrom lowest ((a, b) :: m) = true ↔
      lowest ≤ a ∧ a < Config.memSize ∧ b ≠ Memory.unlisted ∧ Memory.wfFrom (a + 1) m = true := by
  simp [Memory.wfFrom, and_assoc]

/-- The canonical form from an address is one from every lower address. -/
theorem Memory.wfFrom_mono {m : Memory} {low high : Nat} (h : Memory.wfFrom high m = true) (hle : low ≤ high) :
    Memory.wfFrom low m = true := by
  cases m with
  | nil => rfl
  | cons c m =>
    obtain ⟨h1, h2⟩ := Memory.wfFrom_cons.mp h
    exact Memory.wfFrom_cons.mpr ⟨hle.trans h1, h2⟩

/-- Below the first listed address nothing is listed. -/
theorem Memory.read_of_lt {m : Memory} {lowest a : Nat} (h : Memory.wfFrom lowest m = true) (ha : a < lowest) :
    Memory.read m a = Memory.unlisted := by
  induction m generalizing lowest with
  | nil => rfl
  | cons c m ih =>
    obtain ⟨h1, -, -, h4⟩ := Memory.wfFrom_cons.mp h
    rw [Memory.read_cons, if_neg (by omega), ih h4 (by omega)]

/-! ### Writing -/

/-- A write keeps the canonical form. -/
theorem Memory.wfFrom_write {m : Memory} {lowest a : Nat} (b : Byte) (h : Memory.wfFrom lowest m = true)
    (hlo : lowest ≤ a) (hhi : a < Config.memSize) : Memory.wfFrom lowest (Memory.write m a b) = true := by
  induction m generalizing lowest with
  | nil =>
    unfold Memory.write
    split
    · rfl
    · exact Memory.wfFrom_cons.mpr ⟨hlo, hhi, ‹_›, rfl⟩
  | cons c m ih =>
    obtain ⟨a', b'⟩ := c
    obtain ⟨h1, h2, h3, h4⟩ := Memory.wfFrom_cons.mp h
    unfold Memory.write
    split
    · split
      · exact h
      · exact Memory.wfFrom_cons.mpr ⟨hlo, hhi, ‹_›, Memory.wfFrom_cons.mpr ⟨by omega, h2, h3, h4⟩⟩
    · split
      · subst a
        split
        · exact Memory.wfFrom_mono h4 (by omega)
        · exact Memory.wfFrom_cons.mpr ⟨hlo, hhi, ‹_›, h4⟩
      · exact Memory.wfFrom_cons.mpr ⟨h1, h2, h3, ih h4 (by omega)⟩

/-- A write within the memory keeps the canonical form. -/
theorem Memory.wf_write {m : Memory} {a : Nat} (b : Byte) (h : m.wf = true) (ha : a < Config.memSize) :
    (Memory.write m a b).wf = true :=
  Memory.wfFrom_write b h (Nat.zero_le a) ha

theorem Memory.read_write_from {m : Memory} {lowest a : Nat} (b : Byte) (h : Memory.wfFrom lowest m = true) (c : Nat) :
    Memory.read (Memory.write m a b) c = if c = a then b else Memory.read m c := by
  induction m generalizing lowest with
  | nil =>
    unfold Memory.write
    split <;> by_cases hc : c = a
    · rw [if_pos hc, Memory.read_nil, ‹b = _›]
    · rw [if_neg hc]
    · rw [if_pos hc, Memory.read_cons, if_pos hc.symm]
    · rw [if_neg hc, Memory.read_cons, if_neg (Ne.symm hc)]
  | cons d m ih =>
    obtain ⟨a', b'⟩ := d
    obtain ⟨-, -, -, h4⟩ := Memory.wfFrom_cons.mp h
    have hbelow : a < a' → Memory.read m a = Memory.unlisted := fun hlt => Memory.read_of_lt h4 (by omega)
    unfold Memory.write
    split
    · split <;> simp only [Memory.read_cons] <;> by_cases hc : c = a
      · subst hc; rw [if_neg (by omega), if_pos rfl, hbelow ‹_›, ‹b = _›]
      · rw [if_neg hc]
      · rw [if_pos hc.symm, if_pos hc]
      · rw [if_neg (Ne.symm hc), if_neg hc]
    · split
      · subst a
        split <;> simp only [Memory.read_cons] <;> by_cases hc : c = a'
        · subst hc; rw [if_pos rfl, Memory.read_of_lt h4 (by omega), ‹b = _›]
        · rw [if_neg hc, if_neg (Ne.symm hc)]
        · rw [if_pos hc.symm, if_pos hc]
        · rw [if_neg (Ne.symm hc), if_neg hc, if_neg (Ne.symm hc)]
      · simp only [Memory.read_cons, ih h4]
        by_cases hc : c = a
        · rw [if_pos hc, if_neg (by omega), if_pos hc]
        · rw [if_neg hc, if_neg hc]

/-- Reading after a write: the byte written at its address, what was there elsewhere (20_memory.md R58). -/
theorem Memory.read_write {m : Memory} (h : m.wf = true) (a : Nat) (b : Byte) (c : Nat) :
    Memory.read (Memory.write m a b) c = if c = a then b else Memory.read m c :=
  Memory.read_write_from b h c

/-- Canonical memories that read alike are equal. -/
theorem Memory.ext_from {m m' : Memory} {lowest : Nat} (h : Memory.wfFrom lowest m = true)
    (h' : Memory.wfFrom lowest m' = true) (hread : ∀ a, Memory.read m a = Memory.read m' a) : m = m' := by
  induction m generalizing lowest m' with
  | nil =>
    cases m' with
    | nil => rfl
    | cons c m' =>
      obtain ⟨a, b⟩ := c
      have := hread a
      rw [Memory.read_cons, if_pos rfl] at this
      exact absurd this.symm (Memory.wfFrom_cons.mp h').2.2.1
  | cons c m ih =>
    obtain ⟨a, b⟩ := c
    obtain ⟨h1, h2, h3, h4⟩ := Memory.wfFrom_cons.mp h
    cases m' with
    | nil =>
      have := hread a
      rw [Memory.read_cons, if_pos rfl] at this
      exact absurd this h3
    | cons c' m' =>
      obtain ⟨a', b'⟩ := c'
      obtain ⟨h1', h2', h3', h4'⟩ := Memory.wfFrom_cons.mp h'
      have heq : a = a' := by
        rcases Nat.lt_trichotomy a a' with hlt | heq | hgt
        · have := hread a
          rw [Memory.read_cons, if_pos rfl, Memory.read_cons, if_neg (by omega), Memory.read_of_lt h4' (by omega)] at this
          exact absurd this h3
        · exact heq
        · have := hread a'
          rw [Memory.read_cons, if_neg (by omega), Memory.read_of_lt h4 (by omega), Memory.read_cons, if_pos rfl] at this
          exact absurd this.symm h3'
      subst heq
      have hb := hread a
      rw [Memory.read_cons, if_pos rfl, Memory.read_cons, if_pos rfl] at hb
      subst hb
      rw [ih h4 h4' fun c => ?_]
      have hc := hread c
      rw [Memory.read_cons, Memory.read_cons] at hc
      by_cases hca : a = c
      · subst hca; rw [Memory.read_of_lt h4 (by omega), Memory.read_of_lt h4' (by omega)]
      · rwa [if_neg hca, if_neg hca] at hc

/-- Canonical memories that read alike are equal data. -/
theorem Memory.ext {m m' : Memory} (h : m.wf = true) (h' : m'.wf = true)
    (hread : ∀ a, Memory.read m a = Memory.read m' a) : m = m' :=
  Memory.ext_from h h' hread

/-! ### Checked accesses -/

theorem memRead_of_lt {m : Memory} {a : Nat} (h : a < Config.memSize) : memRead m a = .ok (Memory.read m a) :=
  if_neg (Nat.not_le.mpr h)

theorem memRead_of_le {m : Memory} {a : Nat} (h : Config.memSize ≤ a) : memRead m a = .error (boundsFault a) :=
  if_pos h

theorem memWrite_of_lt {m : Memory} {a : Nat} {b : Byte} (h : a < Config.memSize) :
    memWrite m a b = .ok (Memory.write m a b) :=
  if_neg (Nat.not_le.mpr h)

theorem memWrite_of_le {m : Memory} {a : Nat} {b : Byte} (h : Config.memSize ≤ a) :
    memWrite m a b = .error (boundsFault a) :=
  if_pos h

/-! ### Several reads -/

/-- Reads within the memory give the bytes in order; no read faults when there is none. -/
theorem readBytes_ok (m : Memory) (a count : Nat) (h : count = 0 ∨ a + count ≤ Config.memSize) :
    readBytes m a count = .ok ((List.range count).map fun k => Memory.read m (a + k)) := by
  induction count generalizing a with
  | zero => rfl
  | succ count ih =>
    have hle : a + (count + 1) ≤ Config.memSize := h.resolve_left (Nat.succ_ne_zero count)
    unfold readBytes
    rw [memRead_of_lt (by omega), ih (a + 1) (.inr (by omega)), List.range_succ_eq_map]
    simp [Function.comp_def, Nat.add_assoc, Nat.add_comm 1, pure, Except.pure, bind, Except.bind]

/-- Reads that leave the memory fault at the first address outside (60_exceptions.md R255). -/
theorem readBytes_error (m : Memory) (a count : Nat) (hcount : count ≠ 0) (h : Config.memSize < a + count) :
    readBytes m a count = .error (boundsFault (max a Config.memSize)) := by
  induction count generalizing a with
  | zero => exact absurd rfl hcount
  | succ count ih =>
    unfold readBytes
    by_cases ha : Config.memSize ≤ a
    · rw [memRead_of_le ha, Nat.max_eq_left ha]; rfl
    · rw [memRead_of_lt (by omega), ih (a + 1) (by omega) (by omega)]
      rw [Nat.max_eq_right (by omega), Nat.max_eq_right (by omega)]
      rfl

/-! ### Several writes -/

/-- Writes within the memory succeed; the result is canonical, holds the bytes, and is as before elsewhere. -/
theorem writeBytes_ok {m : Memory} (hwf : m.wf = true) (a : Nat) (bs : List Byte) (h : a + bs.length ≤ Config.memSize) :
    ∃ m', writeBytes m a bs = .ok m' ∧ m'.wf = true ∧
      ∀ c, Memory.read m' c = if hc : a ≤ c ∧ c < a + bs.length then bs[c - a]'(by omega) else Memory.read m c := by
  induction bs generalizing m a with
  | nil => exact ⟨m, rfl, hwf, fun c => by rw [dif_neg]; simp only [List.length_nil]; omega⟩
  | cons b bs ih =>
    rw [List.length_cons] at h
    obtain ⟨m', hm, hwf', hread⟩ := ih (Memory.wf_write b hwf (a := a) (by omega)) (a + 1) (by omega)
    refine ⟨m', ?_, hwf', fun c => ?_⟩
    · unfold writeBytes
      rw [memWrite_of_lt (by omega)]
      exact hm
    · rw [hread c]
      simp only [List.length_cons]
      by_cases h1 : a + 1 ≤ c ∧ c < a + 1 + bs.length
      · rw [dif_pos h1, dif_pos ⟨by omega, by omega⟩, List.getElem_cons, dif_neg (by omega)]
        simp only [Nat.sub_sub]
      · rw [dif_neg h1, Memory.read_write hwf]
        by_cases hca : c = a
        · subst hca
          rw [if_pos rfl, dif_pos ⟨Nat.le_refl _, by omega⟩, List.getElem_cons, dif_pos (Nat.sub_self _)]
        · rw [if_neg hca, dif_neg (by omega)]

/-- Writes that leave the memory fault at the first address outside (60_exceptions.md R255). -/
theorem writeBytes_error (m : Memory) (a : Nat) (bs : List Byte) (hne : bs ≠ []) (h : Config.memSize < a + bs.length) :
    writeBytes m a bs = .error (boundsFault (max a Config.memSize)) := by
  induction bs generalizing m a with
  | nil => exact absurd rfl hne
  | cons b bs ih =>
    rw [List.length_cons] at h
    unfold writeBytes
    by_cases ha : Config.memSize ≤ a
    · rw [memWrite_of_le ha, Nat.max_eq_left ha]; rfl
    · have hbs : bs ≠ [] := by rintro rfl; simp only [List.length_nil] at h; omega
      rw [memWrite_of_lt (by omega)]
      change writeBytes _ (a + 1) bs = _
      rw [ih _ (a + 1) hbs (by omega), Nat.max_eq_right (by omega), Nat.max_eq_right (by omega)]

/-- Whatever the bytes, a store that succeeds keeps the canonical form. -/
theorem writeBytes_wf {m m' : Memory} {a : Nat} {bs : List Byte} (hwf : m.wf = true)
    (h : writeBytes m a bs = .ok m') : m'.wf = true := by
  by_cases hle : a + bs.length ≤ Config.memSize
  · obtain ⟨m'', h1, h2, -⟩ := writeBytes_ok hwf a bs hle
    rw [h] at h1
    exact Except.ok.inj h1 ▸ h2
  · by_cases hne : bs = []
    · subst hne; exact Except.ok.inj h ▸ hwf
    · rw [writeBytes_error m a bs hne (by omega)] at h; cases h

/-- A store's fault names the first address outside the memory. -/
theorem writeBytes_error_cases {m : Memory} {a : Nat} {bs : List Byte} {f : Raised} (h : writeBytes m a bs = .error f)
    (hwf : m.wf = true) : f = boundsFault (max a Config.memSize) := by
  by_cases hle : a + bs.length ≤ Config.memSize
  · obtain ⟨m'', h1, -, -⟩ := writeBytes_ok hwf a bs hle
    rw [h] at h1; cases h1
  · by_cases hne : bs = []
    · subst hne; cases h
    · rw [writeBytes_error m a bs hne (by omega)] at h
      exact (Except.error.inj h).symm

/-- A load's fault names the first address outside the memory. -/
theorem readBytes_error_cases {m : Memory} {a count : Nat} {f : Raised} (h : readBytes m a count = .error f) :
    f = boundsFault (max a Config.memSize) := by
  by_cases hok : count = 0 ∨ a + count ≤ Config.memSize
  · rw [readBytes_ok m a count hok] at h; cases h
  · rw [readBytes_error m a count (by omega) (by omega)] at h
    exact (Except.error.inj h).symm

/-! ### load_program's copy -/

/-- The copy of a program that fits (70_reset_and_hazards.md R293). -/
theorem copyBytes_spec {m : Memory} (hwf : m.wf = true) (a : Nat) (bs : List Byte) (h : a + bs.length ≤ Config.memSize) :
    (copyBytes m a bs).wf = true ∧
      ∀ c, Memory.read (copyBytes m a bs) c
        = if hc : a ≤ c ∧ c < a + bs.length then bs[c - a]'(by omega) else Memory.read m c := by
  have hcopy : writeBytes m a bs = .ok (copyBytes m a bs) := by
    clear hwf
    induction bs generalizing m a with
    | nil => rfl
    | cons b bs ih =>
      rw [List.length_cons] at h
      unfold writeBytes copyBytes
      rw [memWrite_of_lt (by omega)]
      exact ih (a + 1) (by omega)
  obtain ⟨m', h1, h2, h3⟩ := writeBytes_ok hwf a bs h
  rw [hcopy] at h1
  rw [Except.ok.inj h1]
  exact ⟨h2, h3⟩

end Sys2Proof.Machine
end

