-- ==== Sys2Proof/Laws/State.lean ====
section
/-! SUPPORT. One lemma per field per update of the state, so that no proof unfolds a record update. -/

namespace Sys2Proof.Machine

/-! ### setV -/

@[simp] theorem State.setV_mem (s : State) (r : Reg) (b : Byte) : (s.setV r b).mem = s.mem := rfl
@[simp] theorem State.setV_v (s : State) (r : Reg) (b : Byte) : (s.setV r b).v = s.v.set r.val b := rfl
@[simp] theorem State.setV_idx (s : State) (r : Reg) (b : Byte) : (s.setV r b).idx = s.idx := rfl
@[simp] theorem State.setV_pc (s : State) (r : Reg) (b : Byte) : (s.setV r b).pc = s.pc := rfl
@[simp] theorem State.setV_stack (s : State) (r : Reg) (b : Byte) : (s.setV r b).stack = s.stack := rfl
@[simp] theorem State.setV_sp (s : State) (r : Reg) (b : Byte) : (s.setV r b).sp = s.sp := rfl
@[simp] theorem State.setV_dt (s : State) (r : Reg) (b : Byte) : (s.setV r b).dt = s.dt := rfl
@[simp] theorem State.setV_st (s : State) (r : Reg) (b : Byte) : (s.setV r b).st = s.st := rfl
@[simp] theorem State.setV_fb (s : State) (r : Reg) (b : Byte) : (s.setV r b).fb = s.fb := rfl
@[simp] theorem State.setV_keysCur (s : State) (r : Reg) (b : Byte) : (s.setV r b).keysCur = s.keysCur := rfl
@[simp] theorem State.setV_keysPrev (s : State) (r : Reg) (b : Byte) : (s.setV r b).keysPrev = s.keysPrev := rfl
@[simp] theorem State.setV_halted (s : State) (r : Reg) (b : Byte) : (s.setV r b).halted = s.halted := rfl
@[simp] theorem State.setV_faultCause (s : State) (r : Reg) (b : Byte) : (s.setV r b).faultCause = s.faultCause := rfl
@[simp] theorem State.setV_faultInfo (s : State) (r : Reg) (b : Byte) : (s.setV r b).faultInfo = s.faultInfo := rfl
@[simp] theorem State.setV_started (s : State) (r : Reg) (b : Byte) : (s.setV r b).started = s.started := rfl
@[simp] theorem State.setV_draws (s : State) (r : Reg) (b : Byte) : (s.setV r b).draws = s.draws := rfl
@[simp] theorem State.setV_reports (s : State) (r : Reg) (b : Byte) : (s.setV r b).reports = s.reports := rfl

/-! ### setIdx -/

@[simp] theorem State.setIdx_mem (s : State) (a : Word) : (s.setIdx a).mem = s.mem := rfl
@[simp] theorem State.setIdx_v (s : State) (a : Word) : (s.setIdx a).v = s.v := rfl
@[simp] theorem State.setIdx_idx (s : State) (a : Word) : (s.setIdx a).idx = a := rfl
@[simp] theorem State.setIdx_pc (s : State) (a : Word) : (s.setIdx a).pc = s.pc := rfl
@[simp] theorem State.setIdx_stack (s : State) (a : Word) : (s.setIdx a).stack = s.stack := rfl
@[simp] theorem State.setIdx_sp (s : State) (a : Word) : (s.setIdx a).sp = s.sp := rfl
@[simp] theorem State.setIdx_dt (s : State) (a : Word) : (s.setIdx a).dt = s.dt := rfl
@[simp] theorem State.setIdx_st (s : State) (a : Word) : (s.setIdx a).st = s.st := rfl
@[simp] theorem State.setIdx_fb (s : State) (a : Word) : (s.setIdx a).fb = s.fb := rfl
@[simp] theorem State.setIdx_keysCur (s : State) (a : Word) : (s.setIdx a).keysCur = s.keysCur := rfl
@[simp] theorem State.setIdx_keysPrev (s : State) (a : Word) : (s.setIdx a).keysPrev = s.keysPrev := rfl
@[simp] theorem State.setIdx_halted (s : State) (a : Word) : (s.setIdx a).halted = s.halted := rfl
@[simp] theorem State.setIdx_faultCause (s : State) (a : Word) : (s.setIdx a).faultCause = s.faultCause := rfl
@[simp] theorem State.setIdx_faultInfo (s : State) (a : Word) : (s.setIdx a).faultInfo = s.faultInfo := rfl
@[simp] theorem State.setIdx_started (s : State) (a : Word) : (s.setIdx a).started = s.started := rfl
@[simp] theorem State.setIdx_draws (s : State) (a : Word) : (s.setIdx a).draws = s.draws := rfl
@[simp] theorem State.setIdx_reports (s : State) (a : Word) : (s.setIdx a).reports = s.reports := rfl

/-! ### jump -/

@[simp] theorem State.jump_mem (s : State) (a : Word) : (s.jump a).mem = s.mem := rfl
@[simp] theorem State.jump_v (s : State) (a : Word) : (s.jump a).v = s.v := rfl
@[simp] theorem State.jump_idx (s : State) (a : Word) : (s.jump a).idx = s.idx := rfl
@[simp] theorem State.jump_pc (s : State) (a : Word) : (s.jump a).pc = a := rfl
@[simp] theorem State.jump_stack (s : State) (a : Word) : (s.jump a).stack = s.stack := rfl
@[simp] theorem State.jump_sp (s : State) (a : Word) : (s.jump a).sp = s.sp := rfl
@[simp] theorem State.jump_dt (s : State) (a : Word) : (s.jump a).dt = s.dt := rfl
@[simp] theorem State.jump_st (s : State) (a : Word) : (s.jump a).st = s.st := rfl
@[simp] theorem State.jump_fb (s : State) (a : Word) : (s.jump a).fb = s.fb := rfl
@[simp] theorem State.jump_keysCur (s : State) (a : Word) : (s.jump a).keysCur = s.keysCur := rfl
@[simp] theorem State.jump_keysPrev (s : State) (a : Word) : (s.jump a).keysPrev = s.keysPrev := rfl
@[simp] theorem State.jump_halted (s : State) (a : Word) : (s.jump a).halted = s.halted := rfl
@[simp] theorem State.jump_faultCause (s : State) (a : Word) : (s.jump a).faultCause = s.faultCause := rfl
@[simp] theorem State.jump_faultInfo (s : State) (a : Word) : (s.jump a).faultInfo = s.faultInfo := rfl
@[simp] theorem State.jump_started (s : State) (a : Word) : (s.jump a).started = s.started := rfl
@[simp] theorem State.jump_draws (s : State) (a : Word) : (s.jump a).draws = s.draws := rfl
@[simp] theorem State.jump_reports (s : State) (a : Word) : (s.jump a).reports = s.reports := rfl

/-! ### advance -/

@[simp] theorem State.advance_mem (s : State) : (s.advance).mem = s.mem := rfl
@[simp] theorem State.advance_v (s : State) : (s.advance).v = s.v := rfl
@[simp] theorem State.advance_idx (s : State) : (s.advance).idx = s.idx := rfl
@[simp] theorem State.advance_pc (s : State) : (s.advance).pc = s.pc + 2 := rfl
@[simp] theorem State.advance_stack (s : State) : (s.advance).stack = s.stack := rfl
@[simp] theorem State.advance_sp (s : State) : (s.advance).sp = s.sp := rfl
@[simp] theorem State.advance_dt (s : State) : (s.advance).dt = s.dt := rfl
@[simp] theorem State.advance_st (s : State) : (s.advance).st = s.st := rfl
@[simp] theorem State.advance_fb (s : State) : (s.advance).fb = s.fb := rfl
@[simp] theorem State.advance_keysCur (s : State) : (s.advance).keysCur = s.keysCur := rfl
@[simp] theorem State.advance_keysPrev (s : State) : (s.advance).keysPrev = s.keysPrev := rfl
@[simp] theorem State.advance_halted (s : State) : (s.advance).halted = s.halted := rfl
@[simp] theorem State.advance_faultCause (s : State) : (s.advance).faultCause = s.faultCause := rfl
@[simp] theorem State.advance_faultInfo (s : State) : (s.advance).faultInfo = s.faultInfo := rfl
@[simp] theorem State.advance_started (s : State) : (s.advance).started = s.started := rfl
@[simp] theorem State.advance_draws (s : State) : (s.advance).draws = s.draws := rfl
@[simp] theorem State.advance_reports (s : State) : (s.advance).reports = s.reports := rfl

/-! ### decrementTimers -/

@[simp] theorem State.decrementTimers_mem (s : State) : (s.decrementTimers).mem = s.mem := rfl
@[simp] theorem State.decrementTimers_v (s : State) : (s.decrementTimers).v = s.v := rfl
@[simp] theorem State.decrementTimers_idx (s : State) : (s.decrementTimers).idx = s.idx := rfl
@[simp] theorem State.decrementTimers_pc (s : State) : (s.decrementTimers).pc = s.pc := rfl
@[simp] theorem State.decrementTimers_stack (s : State) : (s.decrementTimers).stack = s.stack := rfl
@[simp] theorem State.decrementTimers_sp (s : State) : (s.decrementTimers).sp = s.sp := rfl
@[simp] theorem State.decrementTimers_dt (s : State) : (s.decrementTimers).dt = countDown s.dt := rfl
@[simp] theorem State.decrementTimers_st (s : State) : (s.decrementTimers).st = countDown s.st := rfl
@[simp] theorem State.decrementTimers_fb (s : State) : (s.decrementTimers).fb = s.fb := rfl
@[simp] theorem State.decrementTimers_keysCur (s : State) : (s.decrementTimers).keysCur = s.keysCur := rfl
@[simp] theorem State.decrementTimers_keysPrev (s : State) : (s.decrementTimers).keysPrev = s.keysPrev := rfl
@[simp] theorem State.decrementTimers_halted (s : State) : (s.decrementTimers).halted = s.halted := rfl
@[simp] theorem State.decrementTimers_faultCause (s : State) : (s.decrementTimers).faultCause = s.faultCause := rfl
@[simp] theorem State.decrementTimers_faultInfo (s : State) : (s.decrementTimers).faultInfo = s.faultInfo := rfl
@[simp] theorem State.decrementTimers_started (s : State) : (s.decrementTimers).started = s.started := rfl
@[simp] theorem State.decrementTimers_draws (s : State) : (s.decrementTimers).draws = s.draws := rfl
@[simp] theorem State.decrementTimers_reports (s : State) : (s.decrementTimers).reports = s.reports := rfl

/-! ### latchKeys -/

@[simp] theorem State.latchKeys_mem (s : State) : (s.latchKeys).mem = s.mem := rfl
@[simp] theorem State.latchKeys_v (s : State) : (s.latchKeys).v = s.v := rfl
@[simp] theorem State.latchKeys_idx (s : State) : (s.latchKeys).idx = s.idx := rfl
@[simp] theorem State.latchKeys_pc (s : State) : (s.latchKeys).pc = s.pc := rfl
@[simp] theorem State.latchKeys_stack (s : State) : (s.latchKeys).stack = s.stack := rfl
@[simp] theorem State.latchKeys_sp (s : State) : (s.latchKeys).sp = s.sp := rfl
@[simp] theorem State.latchKeys_dt (s : State) : (s.latchKeys).dt = s.dt := rfl
@[simp] theorem State.latchKeys_st (s : State) : (s.latchKeys).st = s.st := rfl
@[simp] theorem State.latchKeys_fb (s : State) : (s.latchKeys).fb = s.fb := rfl
@[simp] theorem State.latchKeys_keysCur (s : State) : (s.latchKeys).keysCur = s.keysCur := rfl
@[simp] theorem State.latchKeys_keysPrev (s : State) : (s.latchKeys).keysPrev = s.keysCur := rfl
@[simp] theorem State.latchKeys_halted (s : State) : (s.latchKeys).halted = s.halted := rfl
@[simp] theorem State.latchKeys_faultCause (s : State) : (s.latchKeys).faultCause = s.faultCause := rfl
@[simp] theorem State.latchKeys_faultInfo (s : State) : (s.latchKeys).faultInfo = s.faultInfo := rfl
@[simp] theorem State.latchKeys_started (s : State) : (s.latchKeys).started = s.started := rfl
@[simp] theorem State.latchKeys_draws (s : State) : (s.latchKeys).draws = s.draws := rfl
@[simp] theorem State.latchKeys_reports (s : State) : (s.latchKeys).reports = s.reports := rfl

/-! ### report -/

@[simp] theorem State.report_mem (s : State) (e : Report) : (s.report e).mem = s.mem := rfl
@[simp] theorem State.report_v (s : State) (e : Report) : (s.report e).v = s.v := rfl
@[simp] theorem State.report_idx (s : State) (e : Report) : (s.report e).idx = s.idx := rfl
@[simp] theorem State.report_pc (s : State) (e : Report) : (s.report e).pc = s.pc := rfl
@[simp] theorem State.report_stack (s : State) (e : Report) : (s.report e).stack = s.stack := rfl
@[simp] theorem State.report_sp (s : State) (e : Report) : (s.report e).sp = s.sp := rfl
@[simp] theorem State.report_dt (s : State) (e : Report) : (s.report e).dt = s.dt := rfl
@[simp] theorem State.report_st (s : State) (e : Report) : (s.report e).st = s.st := rfl
@[simp] theorem State.report_fb (s : State) (e : Report) : (s.report e).fb = s.fb := rfl
@[simp] theorem State.report_keysCur (s : State) (e : Report) : (s.report e).keysCur = s.keysCur := rfl
@[simp] theorem State.report_keysPrev (s : State) (e : Report) : (s.report e).keysPrev = s.keysPrev := rfl
@[simp] theorem State.report_halted (s : State) (e : Report) : (s.report e).halted = s.halted := rfl
@[simp] theorem State.report_faultCause (s : State) (e : Report) : (s.report e).faultCause = s.faultCause := rfl
@[simp] theorem State.report_faultInfo (s : State) (e : Report) : (s.report e).faultInfo = s.faultInfo := rfl
@[simp] theorem State.report_started (s : State) (e : Report) : (s.report e).started = s.started := rfl
@[simp] theorem State.report_draws (s : State) (e : Report) : (s.report e).draws = s.draws := rfl
@[simp] theorem State.report_reports (s : State) (e : Report) : (s.report e).reports = s.reports ++ [e] := rfl

/-! ### countDraw -/

@[simp] theorem State.countDraw_mem (s : State) : (s.countDraw).mem = s.mem := rfl
@[simp] theorem State.countDraw_v (s : State) : (s.countDraw).v = s.v := rfl
@[simp] theorem State.countDraw_idx (s : State) : (s.countDraw).idx = s.idx := rfl
@[simp] theorem State.countDraw_pc (s : State) : (s.countDraw).pc = s.pc := rfl
@[simp] theorem State.countDraw_stack (s : State) : (s.countDraw).stack = s.stack := rfl
@[simp] theorem State.countDraw_sp (s : State) : (s.countDraw).sp = s.sp := rfl
@[simp] theorem State.countDraw_dt (s : State) : (s.countDraw).dt = s.dt := rfl
@[simp] theorem State.countDraw_st (s : State) : (s.countDraw).st = s.st := rfl
@[simp] theorem State.countDraw_fb (s : State) : (s.countDraw).fb = s.fb := rfl
@[simp] theorem State.countDraw_keysCur (s : State) : (s.countDraw).keysCur = s.keysCur := rfl
@[simp] theorem State.countDraw_keysPrev (s : State) : (s.countDraw).keysPrev = s.keysPrev := rfl
@[simp] theorem State.countDraw_halted (s : State) : (s.countDraw).halted = s.halted := rfl
@[simp] theorem State.countDraw_faultCause (s : State) : (s.countDraw).faultCause = s.faultCause := rfl
@[simp] theorem State.countDraw_faultInfo (s : State) : (s.countDraw).faultInfo = s.faultInfo := rfl
@[simp] theorem State.countDraw_started (s : State) : (s.countDraw).started = s.started := rfl
@[simp] theorem State.countDraw_draws (s : State) : (s.countDraw).draws = s.draws + 1 := rfl
@[simp] theorem State.countDraw_reports (s : State) : (s.countDraw).reports = s.reports := rfl

/-! ### setThenFlag -/

@[simp] theorem State.setThenFlag_mem (s : State) (x : Reg) (b f : Byte) : (s.setThenFlag x b f).mem = s.mem := rfl
@[simp] theorem State.setThenFlag_v (s : State) (x : Reg) (b f : Byte) : (s.setThenFlag x b f).v = (s.v.set x.val b).set vF.val f := rfl
@[simp] theorem State.setThenFlag_idx (s : State) (x : Reg) (b f : Byte) : (s.setThenFlag x b f).idx = s.idx := rfl
@[simp] theorem State.setThenFlag_pc (s : State) (x : Reg) (b f : Byte) : (s.setThenFlag x b f).pc = s.pc := rfl
@[simp] theorem State.setThenFlag_stack (s : State) (x : Reg) (b f : Byte) : (s.setThenFlag x b f).stack = s.stack := rfl
@[simp] theorem State.setThenFlag_sp (s : State) (x : Reg) (b f : Byte) : (s.setThenFlag x b f).sp = s.sp := rfl
@[simp] theorem State.setThenFlag_dt (s : State) (x : Reg) (b f : Byte) : (s.setThenFlag x b f).dt = s.dt := rfl
@[simp] theorem State.setThenFlag_st (s : State) (x : Reg) (b f : Byte) : (s.setThenFlag x b f).st = s.st := rfl
@[simp] theorem State.setThenFlag_fb (s : State) (x : Reg) (b f : Byte) : (s.setThenFlag x b f).fb = s.fb := rfl
@[simp] theorem State.setThenFlag_keysCur (s : State) (x : Reg) (b f : Byte) : (s.setThenFlag x b f).keysCur = s.keysCur := rfl
@[simp] theorem State.setThenFlag_keysPrev (s : State) (x : Reg) (b f : Byte) : (s.setThenFlag x b f).keysPrev = s.keysPrev := rfl
@[simp] theorem State.setThenFlag_halted (s : State) (x : Reg) (b f : Byte) : (s.setThenFlag x b f).halted = s.halted := rfl
@[simp] theorem State.setThenFlag_faultCause (s : State) (x : Reg) (b f : Byte) : (s.setThenFlag x b f).faultCause = s.faultCause := rfl
@[simp] theorem State.setThenFlag_faultInfo (s : State) (x : Reg) (b f : Byte) : (s.setThenFlag x b f).faultInfo = s.faultInfo := rfl
@[simp] theorem State.setThenFlag_started (s : State) (x : Reg) (b f : Byte) : (s.setThenFlag x b f).started = s.started := rfl
@[simp] theorem State.setThenFlag_draws (s : State) (x : Reg) (b f : Byte) : (s.setThenFlag x b f).draws = s.draws := rfl
@[simp] theorem State.setThenFlag_reports (s : State) (x : Reg) (b f : Byte) : (s.setThenFlag x b f).reports = s.reports := rfl

/-! ### skipIf -/

@[simp] theorem State.skipIf_mem (s : State) (c : Bool) : (s.skipIf c).mem = s.mem := by cases c <;> rfl
@[simp] theorem State.skipIf_v (s : State) (c : Bool) : (s.skipIf c).v = s.v := by cases c <;> rfl
@[simp] theorem State.skipIf_idx (s : State) (c : Bool) : (s.skipIf c).idx = s.idx := by cases c <;> rfl
@[simp] theorem State.skipIf_pc (s : State) (c : Bool) : (s.skipIf c).pc = if c then s.pc + 2 else s.pc := by
  cases c <;> rfl
@[simp] theorem State.skipIf_stack (s : State) (c : Bool) : (s.skipIf c).stack = s.stack := by cases c <;> rfl
@[simp] theorem State.skipIf_sp (s : State) (c : Bool) : (s.skipIf c).sp = s.sp := by cases c <;> rfl
@[simp] theorem State.skipIf_dt (s : State) (c : Bool) : (s.skipIf c).dt = s.dt := by cases c <;> rfl
@[simp] theorem State.skipIf_st (s : State) (c : Bool) : (s.skipIf c).st = s.st := by cases c <;> rfl
@[simp] theorem State.skipIf_fb (s : State) (c : Bool) : (s.skipIf c).fb = s.fb := by cases c <;> rfl
@[simp] theorem State.skipIf_keysCur (s : State) (c : Bool) : (s.skipIf c).keysCur = s.keysCur := by cases c <;> rfl
@[simp] theorem State.skipIf_keysPrev (s : State) (c : Bool) : (s.skipIf c).keysPrev = s.keysPrev := by cases c <;> rfl
@[simp] theorem State.skipIf_halted (s : State) (c : Bool) : (s.skipIf c).halted = s.halted := by cases c <;> rfl
@[simp] theorem State.skipIf_faultCause (s : State) (c : Bool) : (s.skipIf c).faultCause = s.faultCause := by cases c <;> rfl
@[simp] theorem State.skipIf_faultInfo (s : State) (c : Bool) : (s.skipIf c).faultInfo = s.faultInfo := by cases c <;> rfl
@[simp] theorem State.skipIf_started (s : State) (c : Bool) : (s.skipIf c).started = s.started := by cases c <;> rfl
@[simp] theorem State.skipIf_draws (s : State) (c : Bool) : (s.skipIf c).draws = s.draws := by cases c <;> rfl
@[simp] theorem State.skipIf_reports (s : State) (c : Bool) : (s.skipIf c).reports = s.reports := by cases c <;> rfl

/-! ### enterFault -/

@[simp] theorem State.enterFault_mem (s : State) (f : Raised) : (s.enterFault f).mem = s.mem := by
  unfold State.enterFault; split <;> rfl
@[simp] theorem State.enterFault_v (s : State) (f : Raised) : (s.enterFault f).v = s.v := by
  unfold State.enterFault; split <;> rfl
@[simp] theorem State.enterFault_idx (s : State) (f : Raised) : (s.enterFault f).idx = s.idx := by
  unfold State.enterFault; split <;> rfl
@[simp] theorem State.enterFault_pc (s : State) (f : Raised) : (s.enterFault f).pc = s.pc := by
  unfold State.enterFault; split <;> rfl
@[simp] theorem State.enterFault_stack (s : State) (f : Raised) : (s.enterFault f).stack = s.stack := by
  unfold State.enterFault; split <;> rfl
@[simp] theorem State.enterFault_sp (s : State) (f : Raised) : (s.enterFault f).sp = s.sp := by
  unfold State.enterFault; split <;> rfl
@[simp] theorem State.enterFault_dt (s : State) (f : Raised) : (s.enterFault f).dt = s.dt := by
  unfold State.enterFault; split <;> rfl
@[simp] theorem State.enterFault_st (s : State) (f : Raised) : (s.enterFault f).st = s.st := by
  unfold State.enterFault; split <;> rfl
@[simp] theorem State.enterFault_fb (s : State) (f : Raised) : (s.enterFault f).fb = s.fb := by
  unfold State.enterFault; split <;> rfl
@[simp] theorem State.enterFault_keysCur (s : State) (f : Raised) : (s.enterFault f).keysCur = s.keysCur := by
  unfold State.enterFault; split <;> rfl
@[simp] theorem State.enterFault_keysPrev (s : State) (f : Raised) : (s.enterFault f).keysPrev = s.keysPrev := by
  unfold State.enterFault; split <;> rfl
@[simp] theorem State.enterFault_halted (s : State) (f : Raised) : (s.enterFault f).halted = true := by
  unfold State.enterFault; split <;> rfl
@[simp] theorem State.enterFault_faultCause (s : State) (f : Raised) :
    (s.enterFault f).faultCause = if s.faultCause = .noFault then f.cause else s.faultCause := by
  unfold State.enterFault; split <;> rfl
@[simp] theorem State.enterFault_faultInfo (s : State) (f : Raised) :
    (s.enterFault f).faultInfo = if s.faultCause = .noFault then f.info else s.faultInfo := by
  unfold State.enterFault; split <;> rfl
@[simp] theorem State.enterFault_started (s : State) (f : Raised) : (s.enterFault f).started = s.started := by
  unfold State.enterFault; split <;> rfl
@[simp] theorem State.enterFault_draws (s : State) (f : Raised) : (s.enterFault f).draws = s.draws := by
  unfold State.enterFault; split <;> rfl
@[simp] theorem State.enterFault_reports (s : State) (f : Raised) : (s.enterFault f).reports = s.reports := by
  unfold State.enterFault; split <;> rfl

/-! ### Reading a register -/

/-- `V[q]` after `V[r] <- b`. -/
@[simp] theorem State.getV_setV (s : State) (r q : Reg) (b : Byte) :
    (s.setV r b).getV q = if q = r then b else s.getV q := by
  unfold State.getV
  rw [State.setV_v, Vector.getElem_set]
  exact if_congr (by rw [Fin.ext_iff, eq_comm]) rfl rfl

/-- `V[q]` after Vx <- b, then VF <- f. -/
@[simp] theorem State.getV_setThenFlag (s : State) (x q : Reg) (b f : Byte) :
    (s.setThenFlag x b f).getV q = if q = vF then f else if q = x then b else s.getV q := by
  unfold State.setThenFlag
  rw [State.getV_setV, State.getV_setV]

/-- Reading a register depends on the registers alone. -/
theorem State.getV_congr {s t : State} (h : t.v = s.v) (r : Reg) : t.getV r = s.getV r := by
  unfold State.getV; rw [h]

@[simp] theorem State.getV_setIdx (s : State) (a : Word) (q : Reg) : (s.setIdx a).getV q = s.getV q := rfl
@[simp] theorem State.getV_jump (s : State) (a : Word) (q : Reg) : (s.jump a).getV q = s.getV q := rfl
@[simp] theorem State.getV_advance (s : State) (q : Reg) : (s.advance).getV q = s.getV q := rfl
@[simp] theorem State.getV_decrementTimers (s : State) (q : Reg) : (s.decrementTimers).getV q = s.getV q := rfl
@[simp] theorem State.getV_latchKeys (s : State) (q : Reg) : (s.latchKeys).getV q = s.getV q := rfl
@[simp] theorem State.getV_report (s : State) (e : Report) (q : Reg) : (s.report e).getV q = s.getV q := rfl
@[simp] theorem State.getV_countDraw (s : State) (q : Reg) : (s.countDraw).getV q = s.getV q := rfl
@[simp] theorem State.getV_skipIf (s : State) (c : Bool) (q : Reg) : (s.skipIf c).getV q = s.getV q :=
  State.getV_congr (State.skipIf_v s c) q
@[simp] theorem State.getV_enterFault (s : State) (f : Raised) (q : Reg) : (s.enterFault f).getV q = s.getV q :=
  State.getV_congr (State.enterFault_v s f) q

end Sys2Proof.Machine
end

