-- ==== Sys2Proof/Laws/Ops.lean ====
section
/-! SUPPORT. One spec lemma for each shared operation: the stack, the key index, the register block, the digits, the timers,
fetch, and the wrapping of every instruction. -/

namespace Sys2Proof.Machine

/-! ### The wrapping of every instruction -/

/-- An effect that ends well gives its state with the key latch updated. -/
theorem runInstruction_ok {effect : State → Except Raised State} {s t : State} (h : effect s.advance = .ok t) :
    runInstruction effect s = .next t.latchKeys := by
  unfold runInstruction; rw [h]

/-- An effect that raises a fault gives the fault state of the state the instruction began in. -/
theorem runInstruction_error {effect : State → Except Raised State} {s : State} {f : Raised}
    (h : effect s.advance = .error f) : runInstruction effect s = .next (s.enterFault f) := by
  unfold runInstruction; rw [h]

/-- All an instruction can do: complete, or take a fault. -/
theorem runInstruction_cases {effect : State → Except Raised State} {s t : State}
    (h : runInstruction effect s = .next t) :
    (∃ u, effect s.advance = .ok u ∧ t = u.latchKeys) ∨ ∃ f, effect s.advance = .error f ∧ t = s.enterFault f := by
  unfold runInstruction at h
  split at h
  · exact .inl ⟨_, ‹_›, by cases h; rfl⟩
  · exact .inr ⟨_, ‹_›, by cases h; rfl⟩

/-- An instruction whose effect raises no fault completes. -/
theorem runInstruction_pure (effect : State → State) (s : State) :
    runInstruction (fun t => .ok (effect t)) s = .next (effect s.advance).latchKeys := rfl

/-! ### The stack -/

theorem pushReturn_full {s : State} (h : s.sp = 16) (a target : Word) :
    pushReturn s a target = .error { cause := .stackOverflow, info := target } := by
  unfold pushReturn; rw [dif_neg]; rw [h]; decide

theorem pushReturn_ok {s : State} (h : s.sp.val < 16) (a target : Word) :
    pushReturn s a target = .ok { s with stack := s.stack.set s.sp.val a, sp := ⟨s.sp.val + 1, Nat.succ_lt_succ h⟩ } :=
  dif_pos h

theorem popReturn_empty {s : State} (h : s.sp = 0) :
    popReturn s = .error { cause := .stackUnderflow, info := 0x0000#16 } := by
  unfold popReturn; rw [dif_pos]; rw [h]; rfl

theorem popReturn_ok {s : State} (h : s.sp.val ≠ 0) :
    popReturn s = .ok (s.stack[s.sp.val - 1], { s with sp := ⟨s.sp.val - 1, by omega⟩ }) :=
  dif_neg h

/-! ### Operands -/

theorem keyIndex_ok {b : Byte} (h : b.toNat < 16) : keyIndex b = .ok ⟨b.toNat, h⟩ := dif_pos h

theorem keyIndex_error {b : Byte} (h : 16 ≤ b.toNat) : keyIndex b = .error { cause := .keyRange, info := zextByte b } :=
  dif_neg (Nat.not_lt.mpr h)

theorem decimalDigits_length (b : Byte) : (decimalDigits b).length = 3 := rfl

theorem regsUpTo_length (s : State) (x : Reg) : (regsUpTo s x).length = x.val + 1 := by
  simp only [regsUpTo, List.length_take, Vector.length_toList]
  omega

theorem regsUpTo_getElem (s : State) (x : Reg) (k : Nat) (h : k < (regsUpTo s x).length) :
    (regsUpTo s x)[k] = s.getV ⟨k, by rw [regsUpTo_length] at h; omega⟩ := by
  simp [regsUpTo, State.getV]

/-- The least set bit of a mask that has one (46_keypad.md R240). -/
theorem lowestSetBit_spec {m : Word} (h : m ≠ 0x0000#16) :
    lowestSetBit m < 16 ∧ m.getLsbD (lowestSetBit m) = true ∧ ∀ j < lowestSetBit m, m.getLsbD j = false := by
  unfold lowestSetBit
  cases hf : (List.range 16).find? fun i => m.getLsbD i with
  | none =>
    refine absurd (BitVec.eq_of_getLsbD_eq fun i hi => ?_) h
    simpa using List.find?_eq_none.mp hf i (List.mem_range.mpr hi)
  | some k =>
    have hk := List.find?_some hf
    refine ⟨List.mem_range.mp (List.mem_of_find?_eq_some hf), hk, fun j hj => ?_⟩
    rw [Option.getD_some] at hj
    simpa using (List.find?_range_eq_some.mp hf).2.2 j hj

/-! ### The register block -/

/-- Loading the bytes of a list from Vk on. -/
theorem loadRegs_getElem (v : Vector Byte 16) (k : Nat) (bs : List Byte) (r : Nat) (hr : r < 16) :
    (loadRegs v k bs)[r] = if h : k ≤ r ∧ r < k + bs.length then bs[r - k]'(by omega) else v[r] := by
  induction bs generalizing v k with
  | nil => rw [dif_neg]; rfl; simp only [List.length_nil]; omega
  | cons b bs ih =>
    unfold loadRegs
    rw [ih]
    simp only [List.length_cons]
    by_cases h1 : k + 1 ≤ r ∧ r < k + 1 + bs.length
    · rw [dif_pos h1, dif_pos ⟨by omega, by omega⟩, List.getElem_cons, dif_neg (by omega)]
      simp only [Nat.sub_sub]
    · rw [dif_neg h1, Vector.getElem_setIfInBounds]
      by_cases h2 : k = r
      · subst h2
        rw [if_pos rfl, dif_pos ⟨Nat.le_refl _, by omega⟩, List.getElem_cons, dif_pos (Nat.sub_self _)]
      · rw [if_neg h2, dif_neg (by omega)]

/-! ### Timers -/

/-- A timer loses exactly one per tick and stops at 0 (60_exceptions.md R265). -/
theorem countDown_toNat (b : Byte) : (countDown b).toNat = b.toNat - 1 := by
  unfold countDown
  split
  · subst b; rfl
  · have : b.toNat ≠ 0 := fun h => ‹b ≠ _› (BitVec.eq_of_toNat_eq (y := 0x00#8) h)
    rw [BitVec.toNat_sub_of_le (BitVec.le_def.mpr (by simp; omega))]
    rfl

/-! ### Fetch -/

theorem fetch_ok {s : State} (h : s.pc.toNat + 1 < Config.memSize) :
    fetch s = .ok (opcodeOfBytes (s.mem.read s.pc.toNat) (s.mem.read (s.pc.toNat + 1))) := by
  unfold fetch
  rw [memRead_of_lt (by omega), memRead_of_lt h]
  rfl

/-- A fetch that leaves the memory faults at the first address outside (40_execution_cycle.md R102). -/
theorem fetch_error {s : State} (h : Config.memSize ≤ s.pc.toNat + 1) :
    fetch s = .error (boundsFault (max s.pc.toNat Config.memSize)) := by
  unfold fetch
  by_cases ha : Config.memSize ≤ s.pc.toNat
  · rw [memRead_of_le ha, Nat.max_eq_left ha]; rfl
  · rw [memRead_of_lt (by omega), memRead_of_le h, Nat.max_eq_right (by omega)]
    have : s.pc.toNat + 1 = Config.memSize := by omega
    rw [this]; rfl

/-! ### One step -/

/-- All a tick can do in a block that runs: take the fetch's fault, run the decoded instruction, or run an UNKNOWN word. -/
theorem step_cases {s : State} (hs : s.started = true) (hh : s.halted = false) :
    (∃ f, fetch s.decrementTimers = .error f ∧ step s = .next (s.decrementTimers.enterFault f)) ∨
    (∃ op i, fetch s.decrementTimers = .ok op ∧ decode op = .ok i ∧ step s = exec i s.decrementTimers) ∨
    (∃ op r, fetch s.decrementTimers = .ok op ∧ decode op = .error r ∧ step s = execUnknown op s.decrementTimers) := by
  have hstep : step s = executeOne s.decrementTimers := by simp [step, tick, hs, hh]
  rw [hstep]
  unfold executeOne
  cases hf : fetch s.decrementTimers with
  | error f => exact .inl ⟨f, rfl, rfl⟩
  | ok op =>
    cases hd : decode op with
    | ok i => exact .inr (.inl ⟨op, i, rfl, hd, by simp [hd]⟩)
    | error r => exact .inr (.inr ⟨op, r, rfl, hd, by simp [hd]⟩)

end Sys2Proof.Machine
end

