-- ==== Sys2Proof/Laws/Exec.lean ====
section
/-! SUPPORT. One spec lemma for each instruction that can raise a fault: where it completes, the whole next state; where it
faults, the fault. The other instructions complete in every state, and `runInstruction_pure` is their spec lemma. -/

namespace Sys2Proof.Machine

/-! ### The dispatch, arm by arm -/

theorem exec_cls (s : State) : exec .cls s = execCls s := rfl
theorem exec_ret (s : State) : exec .ret s = execRet s := rfl
theorem exec_jp (nnn : Addr12) (s : State) : exec (.jp nnn) s = execJp nnn s := rfl
theorem exec_call (nnn : Addr12) (s : State) : exec (.call nnn) s = execCall nnn s := rfl
theorem exec_seVxNn (x : Reg) (nn : Byte) (s : State) : exec (.seVxNn x nn) s = execSeVxNn x nn s := rfl
theorem exec_sneVxNn (x : Reg) (nn : Byte) (s : State) : exec (.sneVxNn x nn) s = execSneVxNn x nn s := rfl
theorem exec_seVxVy (x y : Reg) (s : State) : exec (.seVxVy x y) s = execSeVxVy x y s := rfl
theorem exec_ldVxNn (x : Reg) (nn : Byte) (s : State) : exec (.ldVxNn x nn) s = execLdVxNn x nn s := rfl
theorem exec_addVxNn (x : Reg) (nn : Byte) (s : State) : exec (.addVxNn x nn) s = execAddVxNn x nn s := rfl
theorem exec_ldVxVy (x y : Reg) (s : State) : exec (.ldVxVy x y) s = execLdVxVy x y s := rfl
theorem exec_orVxVy (x y : Reg) (s : State) : exec (.orVxVy x y) s = execOrVxVy x y s := rfl
theorem exec_andVxVy (x y : Reg) (s : State) : exec (.andVxVy x y) s = execAndVxVy x y s := rfl
theorem exec_xorVxVy (x y : Reg) (s : State) : exec (.xorVxVy x y) s = execXorVxVy x y s := rfl
theorem exec_addVxVy (x y : Reg) (s : State) : exec (.addVxVy x y) s = execAddVxVy x y s := rfl
theorem exec_subVxVy (x y : Reg) (s : State) : exec (.subVxVy x y) s = execSubVxVy x y s := rfl
theorem exec_shrVxVy (x y : Reg) (s : State) : exec (.shrVxVy x y) s = execShrVxVy x y s := rfl
theorem exec_subnVxVy (x y : Reg) (s : State) : exec (.subnVxVy x y) s = execSubnVxVy x y s := rfl
theorem exec_shlVxVy (x y : Reg) (s : State) : exec (.shlVxVy x y) s = execShlVxVy x y s := rfl
theorem exec_sneVxVy (x y : Reg) (s : State) : exec (.sneVxVy x y) s = execSneVxVy x y s := rfl
theorem exec_ldINnn (nnn : Addr12) (s : State) : exec (.ldINnn nnn) s = execLdINnn nnn s := rfl
theorem exec_jpV0Nnn (nnn : Addr12) (s : State) : exec (.jpV0Nnn nnn) s = execJpV0Nnn nnn s := rfl
theorem exec_rndVxNn (x : Reg) (nn : Byte) (s : State) : exec (.rndVxNn x nn) s = execRndVxNn x nn s := rfl
theorem exec_drwVxVyN (x y : Reg) (n : Count) (s : State) : exec (.drwVxVyN x y n) s = execDrwVxVyN x y n s := rfl
theorem exec_skpVx (x : Reg) (s : State) : exec (.skpVx x) s = execSkpVx x s := rfl
theorem exec_sknpVx (x : Reg) (s : State) : exec (.sknpVx x) s = execSknpVx x s := rfl
theorem exec_ldVxDt (x : Reg) (s : State) : exec (.ldVxDt x) s = execLdVxDt x s := rfl
theorem exec_ldVxK (x : Reg) (s : State) : exec (.ldVxK x) s = execLdVxK x s := rfl
theorem exec_ldDtVx (x : Reg) (s : State) : exec (.ldDtVx x) s = execLdDtVx x s := rfl
theorem exec_ldStVx (x : Reg) (s : State) : exec (.ldStVx x) s = execLdStVx x s := rfl
theorem exec_addIVx (x : Reg) (s : State) : exec (.addIVx x) s = execAddIVx x s := rfl
theorem exec_ldFVx (x : Reg) (s : State) : exec (.ldFVx x) s = execLdFVx x s := rfl
theorem exec_ldBVx (x : Reg) (s : State) : exec (.ldBVx x) s = execLdBVx x s := rfl
theorem exec_ldMemVx (x : Reg) (s : State) : exec (.ldMemVx x) s = execLdMemVx x s := rfl
theorem exec_ldVxMem (x : Reg) (s : State) : exec (.ldVxMem x) s = execLdVxMem x s := rfl
theorem exec_clrfbN (n : Count) (s : State) : exec (.clrfbN n) s = execClrfbN n s := rfl
theorem exec_sysNnn (nnn : Addr12) (s : State) : exec (.sysNnn nnn) s = execSysNnn nnn s := rfl

/-! ### RET and CALL -/

theorem execRet_ok {s : State} (h : s.sp.val ≠ 0) :
    execRet s = .next { s with
      sp := ⟨s.sp.val - 1, by omega⟩, pc := s.stack[s.sp.val - 1], keysPrev := s.keysCur } := by
  refine runInstruction_ok (t := { s with sp := ⟨s.sp.val - 1, by omega⟩, pc := s.stack[s.sp.val - 1] }) ?_
  simp only [popReturn_ok (s := s.advance) h]
  rfl

theorem execRet_error {s : State} (h : s.sp = 0) :
    execRet s = .next (s.enterFault { cause := .stackUnderflow, info := 0x0000#16 }) := by
  refine runInstruction_error ?_
  simp only [popReturn_empty (s := s.advance) h]
  rfl

theorem execCall_ok {s : State} (nnn : Addr12) (h : s.sp.val < 16) :
    execCall nnn s = .next { s with
      stack := s.stack.set s.sp.val (s.pc + 2), sp := ⟨s.sp.val + 1, Nat.succ_lt_succ h⟩, pc := zextAddr nnn
      keysPrev := s.keysCur } := by
  refine runInstruction_ok (t := { s with
    stack := s.stack.set s.sp.val (s.pc + 2), sp := ⟨s.sp.val + 1, Nat.succ_lt_succ h⟩, pc := zextAddr nnn }) ?_
  simp only [pushReturn_ok (s := s.advance) h]
  rfl

theorem execCall_error {s : State} (nnn : Addr12) (h : s.sp = 16) :
    execCall nnn s = .next (s.enterFault { cause := .stackOverflow, info := zextAddr nnn }) := by
  refine runInstruction_error ?_
  simp only [pushReturn_full (s := s.advance) h]
  rfl

/-! ### SKP and SKNP -/

theorem execSkpVx_ok {s : State} {x : Reg} (h : (s.getV x).toNat < 16) :
    execSkpVx x s = .next (s.advance.skipIf (s.keysCur.getLsbD (s.getV x).toNat)).latchKeys := by
  refine runInstruction_ok ?_
  simp only [State.getV_advance, keyIndex_ok h]
  rfl

theorem execSkpVx_error {s : State} {x : Reg} (h : 16 ≤ (s.getV x).toNat) :
    execSkpVx x s = .next (s.enterFault { cause := .keyRange, info := zextByte (s.getV x) }) := by
  refine runInstruction_error ?_
  simp only [State.getV_advance, keyIndex_error h]
  rfl

theorem execSknpVx_ok {s : State} {x : Reg} (h : (s.getV x).toNat < 16) :
    execSknpVx x s = .next (s.advance.skipIf (!s.keysCur.getLsbD (s.getV x).toNat)).latchKeys := by
  refine runInstruction_ok ?_
  simp only [State.getV_advance, keyIndex_ok h]
  rfl

theorem execSknpVx_error {s : State} {x : Reg} (h : 16 ≤ (s.getV x).toNat) :
    execSknpVx x s = .next (s.enterFault { cause := .keyRange, info := zextByte (s.getV x) }) := by
  refine runInstruction_error ?_
  simp only [State.getV_advance, keyIndex_error h]
  rfl

/-! ### Stores -/

/-- A store at I that stays within memory: the new memory is canonical, holds the bytes, and is as before elsewhere. -/
theorem storeAtIndex_ok {s : State} (hwf : s.mem.wf = true) (bytes : List Byte)
    (h : s.idx.toNat + bytes.length ≤ Config.memSize) :
    ∃ m, storeAtIndex s bytes = .ok { s with mem := m } ∧ m.wf = true ∧
      ∀ a, Memory.read m a
        = if ha : s.idx.toNat ≤ a ∧ a < s.idx.toNat + bytes.length then bytes[a - s.idx.toNat]'(by omega)
          else Memory.read s.mem a := by
  obtain ⟨m, h1, h2, h3⟩ := writeBytes_ok hwf s.idx.toNat bytes h
  refine ⟨m, ?_, h2, h3⟩
  unfold storeAtIndex dataAddress
  rw [Nat.add_zero, h1]
  rfl

/-- A store at I that leaves the memory faults at the first address outside. -/
theorem storeAtIndex_error {s : State} (bytes : List Byte) (hne : bytes ≠ [])
    (h : Config.memSize < s.idx.toNat + bytes.length) :
    storeAtIndex s bytes = .error (boundsFault (max s.idx.toNat Config.memSize)) := by
  unfold storeAtIndex dataAddress
  rw [Nat.add_zero, writeBytes_error _ _ _ hne h]
  rfl

/-- What a store at I changes: the memory alone. -/
theorem storeAtIndex_cases {s t : State} {bytes : List Byte} (h : storeAtIndex s bytes = .ok t) :
    ∃ m, writeBytes s.mem s.idx.toNat bytes = .ok m ∧ t = { s with mem := m } := by
  unfold storeAtIndex dataAddress at h
  rw [Nat.add_zero] at h
  cases hm : writeBytes s.mem s.idx.toNat bytes with
  | error f => rw [hm] at h; cases h
  | ok m => rw [hm] at h; cases h; exact ⟨m, rfl, rfl⟩

/-- LD B, Vx and LD [I], Vx within memory store their bytes at I and change nothing else but PC and KEYS_PREV. -/
theorem runStore_ok {s : State} (hwf : s.mem.wf = true) (bytes : State → List Byte) (hb : bytes s.advance = bytes s)
    (h : s.idx.toNat + (bytes s).length ≤ Config.memSize) :
    ∃ m, runInstruction (fun t => storeAtIndex t (bytes t)) s = .next { s with mem := m, pc := s.pc + 2, keysPrev := s.keysCur } ∧
      m.wf = true ∧
      ∀ a, Memory.read m a
        = if ha : s.idx.toNat ≤ a ∧ a < s.idx.toNat + (bytes s).length then (bytes s)[a - s.idx.toNat]'(by omega)
          else Memory.read s.mem a := by
  obtain ⟨m, h1, h2, h3⟩ := storeAtIndex_ok (s := s.advance) hwf (bytes s) h
  refine ⟨m, ?_, h2, h3⟩
  refine runInstruction_ok (effect := fun t => storeAtIndex t (bytes t)) (t := { s with mem := m, pc := s.pc + 2 }) ?_
  rw [hb, h1]
  rfl

/-! ### LD Vx, [I] and DRW -/

theorem execLdVxMem_ok {s : State} {x : Reg} (h : s.idx.toNat + (x.val + 1) ≤ Config.memSize) :
    execLdVxMem x s = .next { s with
      v := loadRegs s.v 0 ((List.range (x.val + 1)).map fun k => s.mem.read (s.idx.toNat + k))
      pc := s.pc + 2, keysPrev := s.keysCur } := by
  refine runInstruction_ok (t := { s with
    v := loadRegs s.v 0 ((List.range (x.val + 1)).map fun k => s.mem.read (s.idx.toNat + k)), pc := s.pc + 2 }) ?_
  simp only [dataAddress, Nat.add_zero, State.advance_mem, State.advance_idx, readBytes_ok s.mem _ _ (.inr h)]
  rfl

theorem execLdVxMem_error {s : State} {x : Reg} (h : Config.memSize < s.idx.toNat + (x.val + 1)) :
    execLdVxMem x s = .next (s.enterFault (boundsFault (max s.idx.toNat Config.memSize))) := by
  refine runInstruction_error ?_
  simp only [dataAddress, Nat.add_zero, State.advance_mem, State.advance_idx,
    readBytes_error s.mem _ _ (Nat.succ_ne_zero x.val) h]
  rfl

/-- The rows of a sprite of n rows at I. -/
def spriteRows (s : State) (n : Count) : List Byte := (List.range n.val).map fun k => s.mem.read (s.idx.toNat + k)

theorem execDrwVxVyN_ok {s : State} {x y : Reg} {n : Count} (h : n.val = 0 ∨ s.idx.toNat + n.val ≤ Config.memSize) :
    execDrwVxVyN x y n s = .next { s with
      fb := (drawSprite s.fb (s.getV x).toNat (s.getV y).toNat (spriteRows s n)).fb
      v := s.v.set vF.val
        (flagByte (drawSprite s.fb (s.getV x).toNat (s.getV y).toNat (spriteRows s n)).collision)
      pc := s.pc + 2, keysPrev := s.keysCur } := by
  refine runInstruction_ok (t := { s with
    fb := (drawSprite s.fb (s.getV x).toNat (s.getV y).toNat (spriteRows s n)).fb
    v := s.v.set vF.val
      (flagByte (drawSprite s.fb (s.getV x).toNat (s.getV y).toNat (spriteRows s n)).collision)
    pc := s.pc + 2 }) ?_
  simp only [dataAddress, Nat.add_zero, State.advance_mem, State.advance_idx, readBytes_ok s.mem _ _ h]
  rfl

theorem execDrwVxVyN_error {s : State} {x y : Reg} {n : Count} (hn : n.val ≠ 0)
    (h : Config.memSize < s.idx.toNat + n.val) :
    execDrwVxVyN x y n s = .next (s.enterFault (boundsFault (max s.idx.toNat Config.memSize))) := by
  refine runInstruction_error ?_
  simp only [dataAddress, Nat.add_zero, State.advance_mem, State.advance_idx, readBytes_error s.mem _ _ hn h]
  rfl

end Sys2Proof.Machine
end

