-- ==== Sys2Proof/Laws/PerInstr.lean ====
section
/-! SUPPORT. A law of every instruction as syntax: the first digit of its row's pattern (30_encoding.md R75) is the family its
word decodes by, and its mask holds (the family EncodesFamily of LAWS.json). -/

namespace Sys2Proof.Laws.EncodesFamily

/-- The first digit of the instruction's pattern in 30_encoding.md R75. -/
def firstDigit : Instr → Fin 16
  | .cls => 0x0
  | .ret => 0x0
  | .jp _ => 0x1
  | .call _ => 0x2
  | .seVxNn _ _ => 0x3
  | .sneVxNn _ _ => 0x4
  | .seVxVy _ _ => 0x5
  | .ldVxNn _ _ => 0x6
  | .addVxNn _ _ => 0x7
  | .ldVxVy _ _ => 0x8
  | .orVxVy _ _ => 0x8
  | .andVxVy _ _ => 0x8
  | .xorVxVy _ _ => 0x8
  | .addVxVy _ _ => 0x8
  | .subVxVy _ _ => 0x8
  | .shrVxVy _ _ => 0x8
  | .subnVxVy _ _ => 0x8
  | .shlVxVy _ _ => 0x8
  | .sneVxVy _ _ => 0x9
  | .ldINnn _ => 0xA
  | .jpV0Nnn _ => 0xB
  | .rndVxNn _ _ => 0xC
  | .drwVxVyN _ _ _ => 0xD
  | .skpVx _ => 0xE
  | .sknpVx _ => 0xE
  | .ldVxDt _ => 0xF
  | .ldVxK _ => 0xF
  | .ldDtVx _ => 0xF
  | .ldStVx _ => 0xF
  | .addIVx _ => 0xF
  | .ldFVx _ => 0xF
  | .ldBVx _ => 0xF
  | .ldMemVx _ => 0xF
  | .ldVxMem _ => 0xF
  | .clrfbN _ => 0x0
  | .sysNnn _ => 0x0

/-- The high nibble of the instruction's word is the first digit of its pattern. -/
def Statement (i : Instr) : Prop := fieldH (encode i) = firstDigit i

theorem cls : Statement .cls := by unfold Statement; decide
theorem ret : Statement .ret := by unfold Statement; decide
theorem jp (nnn : Addr12) : Statement (.jp nnn) := fieldH_wordNNN (by decide) _
theorem call (nnn : Addr12) : Statement (.call nnn) := fieldH_wordNNN (by decide) _
theorem seVxNn (x : Reg) (nn : Byte) : Statement (.seVxNn x nn) := fieldH_wordXNN (by decide) _ _
theorem sneVxNn (x : Reg) (nn : Byte) : Statement (.sneVxNn x nn) := fieldH_wordXNN (by decide) _ _
theorem seVxVy (x y : Reg) : Statement (.seVxVy x y) := fieldH_wordXYN (by decide) _ _ _
theorem ldVxNn (x : Reg) (nn : Byte) : Statement (.ldVxNn x nn) := fieldH_wordXNN (by decide) _ _
theorem addVxNn (x : Reg) (nn : Byte) : Statement (.addVxNn x nn) := fieldH_wordXNN (by decide) _ _
theorem ldVxVy (x y : Reg) : Statement (.ldVxVy x y) := fieldH_wordXYN (by decide) _ _ _
theorem orVxVy (x y : Reg) : Statement (.orVxVy x y) := fieldH_wordXYN (by decide) _ _ _
theorem andVxVy (x y : Reg) : Statement (.andVxVy x y) := fieldH_wordXYN (by decide) _ _ _
theorem xorVxVy (x y : Reg) : Statement (.xorVxVy x y) := fieldH_wordXYN (by decide) _ _ _
theorem addVxVy (x y : Reg) : Statement (.addVxVy x y) := fieldH_wordXYN (by decide) _ _ _
theorem subVxVy (x y : Reg) : Statement (.subVxVy x y) := fieldH_wordXYN (by decide) _ _ _
theorem shrVxVy (x y : Reg) : Statement (.shrVxVy x y) := fieldH_wordXYN (by decide) _ _ _
theorem subnVxVy (x y : Reg) : Statement (.subnVxVy x y) := fieldH_wordXYN (by decide) _ _ _
theorem shlVxVy (x y : Reg) : Statement (.shlVxVy x y) := fieldH_wordXYN (by decide) _ _ _
theorem sneVxVy (x y : Reg) : Statement (.sneVxVy x y) := fieldH_wordXYN (by decide) _ _ _
theorem ldINnn (nnn : Addr12) : Statement (.ldINnn nnn) := fieldH_wordNNN (by decide) _
theorem jpV0Nnn (nnn : Addr12) : Statement (.jpV0Nnn nnn) := fieldH_wordNNN (by decide) _
theorem rndVxNn (x : Reg) (nn : Byte) : Statement (.rndVxNn x nn) := fieldH_wordXNN (by decide) _ _
theorem drwVxVyN (x y : Reg) (n : Count) : Statement (.drwVxVyN x y n) := fieldH_wordXYN (by decide) _ _ _
theorem skpVx (x : Reg) : Statement (.skpVx x) := fieldH_wordXNN (by decide) _ _
theorem sknpVx (x : Reg) : Statement (.sknpVx x) := fieldH_wordXNN (by decide) _ _
theorem ldVxDt (x : Reg) : Statement (.ldVxDt x) := fieldH_wordXNN (by decide) _ _
theorem ldVxK (x : Reg) : Statement (.ldVxK x) := fieldH_wordXNN (by decide) _ _
theorem ldDtVx (x : Reg) : Statement (.ldDtVx x) := fieldH_wordXNN (by decide) _ _
theorem ldStVx (x : Reg) : Statement (.ldStVx x) := fieldH_wordXNN (by decide) _ _
theorem addIVx (x : Reg) : Statement (.addIVx x) := fieldH_wordXNN (by decide) _ _
theorem ldFVx (x : Reg) : Statement (.ldFVx x) := fieldH_wordXNN (by decide) _ _
theorem ldBVx (x : Reg) : Statement (.ldBVx x) := fieldH_wordXNN (by decide) _ _
theorem ldMemVx (x : Reg) : Statement (.ldMemVx x) := fieldH_wordXNN (by decide) _ _
theorem ldVxMem (x : Reg) : Statement (.ldVxMem x) := fieldH_wordXNN (by decide) _ _
theorem clrfbN (n : Count) : Statement (.clrfbN n) := fieldH_wordXYN (by decide) _ _ _
theorem sysNnn (nnn : Addr12) : Statement (.sysNnn nnn) := fieldH_wordNNN (by decide) _

end Sys2Proof.Laws.EncodesFamily
end

