-- ==== Sys2Proof/Tests/Slice0.lean ====
section
/-! SUPPORT. Small tests and witnesses. The words are written out from the patterns of 30_encoding.md R75, and the expected
values are those of 95_test_vectors.md (the vector's name stands at each test); one step each. A witness shows that the
hypotheses of a statement of Obligations.lean can be met, clause by clause, at the ends of their ranges. -/

namespace Sys2Proof.Machine.Tests

/-- The reset state with some registers and some memory cells set. -/
def start (regs : List (Reg × Byte)) (cells : List (Nat × Byte)) : State :=
  { State.reset with
    v := regs.foldl (fun v p => v.set p.1.val p.2) State.reset.v
    mem := cells.foldl (fun m p => Memory.write m p.1 p.2) State.reset.mem }

/-- A function of the next state, if there is one. -/
def look {α : Type} (r : Result) (f : State → α) : Option α :=
  match r with
  | .next t => some (f t)
  | .fault _ => none
  | .refused _ => none

/-- One tick that fetches the word `w` at PC. -/
def tickOn (w : Nat) (s : State) : Result := step (s.withFetchWord 16 w)

/-- The next state, for states that have one. -/
def nextState (r : Result) : State :=
  match r with
  | .next t => t
  | .fault _ => State.reset
  | .refused _ => State.reset

/-! ### WellFormed: the one check, and the terms it refuses (30_encoding.md R73) -/

theorem test_sys_of_cls_word_is_ill_formed : (Instr.sysNnn 0x0E0#12).wellFormed = false := by decide
theorem test_sys_of_ret_word_is_ill_formed : (Instr.sysNnn 0x0EE#12).wellFormed = false := by decide
theorem test_sys_of_clrfb_word_is_ill_formed :
    ∀ n : Fin 16, (Instr.sysNnn (BitVec.ofNat 12 (0x0C0 + n.val))).wellFormed = false := by decide
theorem test_sys_beside_the_taken_words_is_well_formed :
    ([0x000#12, 0x0BF#12, 0x0D0#12, 0x0DF#12, 0x0E1#12, 0x0ED#12, 0x0EF#12, 0x1E0#12, 0x2EE#12, 0x1C1#12, 0xFFF#12].all
      fun nnn => (Instr.sysNnn nnn).wellFormed) = true := by decide

/-! ### Decoding: a word of every row, bit by bit from its pattern -/

theorem test_decode_cls : decode 0b0000000011100000#16 = .ok .cls := by decide
theorem test_decode_ret : decode 0b0000000011101110#16 = .ok .ret := by decide
theorem test_decode_jp : decode 0b0001101010111100#16 = .ok (.jp 0xABC#12) := by decide
theorem test_decode_call : decode 0b0010001100000001#16 = .ok (.call 0x301#12) := by decide
theorem test_decode_se_imm : decode 0b0011001101000010#16 = .ok (.seVxNn 3 0x42#8) := by decide
theorem test_decode_sne_imm : decode 0b0100001101000010#16 = .ok (.sneVxNn 3 0x42#8) := by decide
theorem test_decode_se_reg : decode 0b0101000100100000#16 = .ok (.seVxVy 1 2) := by decide
theorem test_decode_ld_imm : decode 0b0110101000101011#16 = .ok (.ldVxNn 10 0x2B#8) := by decide
theorem test_decode_add_imm : decode 0b0111111100100000#16 = .ok (.addVxNn 15 0x20#8) := by decide
theorem test_decode_ld_reg : decode 0b1000010001010000#16 = .ok (.ldVxVy 4 5) := by decide
theorem test_decode_or : decode 0b1000000100100001#16 = .ok (.orVxVy 1 2) := by decide
theorem test_decode_and : decode 0b1000000100100010#16 = .ok (.andVxVy 1 2) := by decide
theorem test_decode_xor : decode 0b1000000100100011#16 = .ok (.xorVxVy 1 2) := by decide
theorem test_decode_add : decode 0b1000000100100100#16 = .ok (.addVxVy 1 2) := by decide
theorem test_decode_sub : decode 0b1000000100100101#16 = .ok (.subVxVy 1 2) := by decide
theorem test_decode_shr : decode 0b1000000100100110#16 = .ok (.shrVxVy 1 2) := by decide
theorem test_decode_subn : decode 0b1000000100100111#16 = .ok (.subnVxVy 1 2) := by decide
theorem test_decode_shl : decode 0b1000000100101110#16 = .ok (.shlVxVy 1 2) := by decide
theorem test_decode_sne_reg : decode 0b1001000100100000#16 = .ok (.sneVxVy 1 2) := by decide
theorem test_decode_ld_index : decode 0b1010001100000001#16 = .ok (.ldINnn 0x301#12) := by decide
theorem test_decode_jp_v0 : decode 0b1011010100000001#16 = .ok (.jpV0Nnn 0x501#12) := by decide
theorem test_decode_rnd : decode 0b1100001100001111#16 = .ok (.rndVxNn 3 0x0F#8) := by decide
theorem test_decode_drw : decode 0b1101101010110001#16 = .ok (.drwVxVyN 10 11 1) := by decide
theorem test_decode_skp : decode 0b1110010110011110#16 = .ok (.skpVx 5) := by decide
theorem test_decode_sknp : decode 0b1110010110100001#16 = .ok (.sknpVx 5) := by decide
theorem test_decode_ld_from_dt : decode 0b1111001100000111#16 = .ok (.ldVxDt 3) := by decide
theorem test_decode_ld_key : decode 0b1111001000001010#16 = .ok (.ldVxK 2) := by decide
theorem test_decode_ld_to_dt : decode 0b1111001000010101#16 = .ok (.ldDtVx 2) := by decide
theorem test_decode_ld_to_st : decode 0b1111001000011000#16 = .ok (.ldStVx 2) := by decide
theorem test_decode_add_index : decode 0b1111001000011110#16 = .ok (.addIVx 2) := by decide
theorem test_decode_ld_font : decode 0b1111010000101001#16 = .ok (.ldFVx 4) := by decide
theorem test_decode_ld_bcd : decode 0b1111001000110011#16 = .ok (.ldBVx 2) := by decide
theorem test_decode_store_regs : decode 0b1111001101010101#16 = .ok (.ldMemVx 3) := by decide
theorem test_decode_load_regs : decode 0b1111001101100101#16 = .ok (.ldVxMem 3) := by decide
theorem test_decode_clrfb : decode 0b0000000011001001#16 = .ok (.clrfbN 9) := by decide
theorem test_decode_sys : decode 0b0000000100100011#16 = .ok (.sysNnn 0x123#12) := by decide

/-- X3, X4, X5: SYS words that look like CLS, RET and CLRFB. -/
theorem test_decode_sys_lookalikes :
    decode 0x01E0#16 = .ok (.sysNnn 0x1E0#12) ∧ decode 0x02EE#16 = .ok (.sysNnn 0x2EE#12) ∧
      decode 0x01C1#16 = .ok (.sysNnn 0x1C1#12) ∧ decode 0x0000#16 = .ok (.sysNnn 0x000#12) := by decide

/-- X6, X7, X8: UNKNOWN words, rejected by name. -/
theorem test_decode_rejects_unknown_words :
    decode 0x5121#16 = .error (.unknownOpcode 0x5121#16) ∧ decode 0x9121#16 = .error (.unknownOpcode 0x9121#16) ∧
      decode 0x8008#16 = .error (.unknownOpcode 0x8008#16) ∧ decode 0x800F#16 = .error (.unknownOpcode 0x800F#16) ∧
      decode 0xE000#16 = .error (.unknownOpcode 0xE000#16) ∧ decode 0xF000#16 = .error (.unknownOpcode 0xF000#16) ∧
      decode 0xFFFF#16 = .error (.unknownOpcode 0xFFFF#16) := by decide

/-- Bytes that end within an instruction. -/
theorem test_decode_rejects_short_bytes :
    decodeBytes [] = .error (.truncated 0) ∧ decodeBytes [0x60#8] = .error (.truncated 1) ∧
      decodeBytes [0x60#8, 0x05#8, 0xFF#8] = .ok (.ldVxNn 0 0x05#8, [0xFF#8]) := by decide

/-! ### One tick on the vectors of 95_test_vectors.md -/

/-- X1. -/
theorem test_sys_only_advances : look (tickOn 0x0123 State.reset) (fun t => (t.pc, t.reports)) = some (0x202#16, []) := by decide
/-- X6. -/
theorem test_unknown_word_is_reported :
    look (tickOn 0x5121 State.reset) (fun t => (t.pc, t.reports))
      = some (0x202#16, [.unknownOpcode 0x0200#16 0x5121#16]) := by decide
/-- X9. -/
theorem test_timers_count_down :
    look (tickOn 0x0000 { State.reset with dt := 3#8, st := 1#8 }) (fun t => (t.dt, t.st, t.pc))
      = some (2#8, 0#8, 0x202#16) := by decide
/-- X10. -/
theorem test_halted_tick_changes_nothing :
    look (step { State.reset with halted := true, dt := 3#8 }) (fun t => (t.dt, t.pc, t.halted))
      = some (3#8, 0x200#16, true) := by decide
/-- X11. -/
theorem test_fetch_at_last_byte_faults :
    look (step { State.reset with pc := 0x0FFF#16, dt := 2#8 })
        (fun t => (t.faultCause, t.faultInfo, t.pc, t.halted, t.dt))
      = some (.memBounds, 0x1000#16, 0x0FFF#16, true, 1#8) := by decide
/-- X13: an odd PC. -/
theorem test_odd_pc_fetches :
    look (tickOn 0x6005 { State.reset with pc := 0x0201#16 }) (fun t => (t.getV 0, t.pc)) = some (0x05#8, 0x0203#16) := by decide
/-- X14 and X15: KEYS_PREV follows a completed instruction, and stays after a fault. -/
theorem test_keys_prev_follows_completion_only :
    look (tickOn 0x0000 { State.reset with keysCur := 1#16 }) (·.keysPrev) = some 1#16 ∧
      look (tickOn 0x00EE { State.reset with keysCur := 1#16 }) (fun t => (t.keysPrev, t.faultCause))
        = some (0#16, .stackUnderflow) := by decide

/-- CF1. -/
theorem test_jp : look (tickOn 0x1ABC State.reset) (·.pc) = some 0x0ABC#16 := by decide
/-- CF4. -/
theorem test_call :
    look (tickOn 0x2300 { State.reset with pc := 0x204#16 }) (fun t => (t.stack[0], t.sp, t.pc))
      = some (0x0206#16, 1, 0x0300#16) := by decide
/-- CF6. -/
theorem test_call_on_full_stack :
    look (tickOn 0x2300 { State.reset with sp := 16 }) (fun t => (t.faultCause, t.faultInfo, t.sp, t.pc, t.halted))
      = some (.stackOverflow, 0x0300#16, 16, 0x200#16, true) := by decide
/-- CF7. -/
theorem test_ret :
    look (tickOn 0x00EE { State.reset with sp := 1, stack := State.reset.stack.set 0 0x0206#16, pc := 0x20A#16 })
        (fun t => (t.sp, t.pc, t.stack[0]))
      = some (0, 0x0206#16, 0x0206#16) := by decide
/-- CF8. -/
theorem test_ret_on_empty_stack :
    look (tickOn 0x00EE State.reset) (fun t => (t.faultCause, t.faultInfo, t.pc, t.halted))
      = some (.stackUnderflow, 0#16, 0x200#16, true) := by decide
/-- CF9, CF10. -/
theorem test_se_imm :
    look (tickOn 0x3342 (start [(3, 0x42#8)] [])) (·.pc) = some 0x204#16 ∧
      look (tickOn 0x3342 (start [(3, 0x41#8)] [])) (·.pc) = some 0x202#16 := by decide
/-- CF11, CF12. -/
theorem test_sne_imm :
    look (tickOn 0x4342 (start [(3, 0x41#8)] [])) (·.pc) = some 0x204#16 ∧
      look (tickOn 0x4342 (start [(3, 0x42#8)] [])) (·.pc) = some 0x202#16 := by decide
/-- CF13, CF16. -/
theorem test_se_reg :
    look (tickOn 0x5120 (start [(1, 7#8), (2, 7#8)] [])) (·.pc) = some 0x204#16 ∧
      look (tickOn 0x5120 (start [(1, 7#8), (2, 8#8)] [])) (·.pc) = some 0x202#16 := by decide
/-- CF15, CF17. -/
theorem test_sne_reg :
    look (tickOn 0x9120 (start [(1, 7#8), (2, 8#8)] [])) (·.pc) = some 0x204#16 ∧
      look (tickOn 0x9110 State.reset) (·.pc) = some 0x202#16 := by decide
/-- CF21, CF22. -/
theorem test_jp_v0 :
    look (tickOn 0xBFFF (start [(0, 0xFF#8)] [])) (·.pc) = some 0x10FE#16 ∧
      look (tickOn 0xB500 (start [(5, 0x20#8)] [])) (·.pc) = some 0x0500#16 := by decide

/-- AL1. -/
theorem test_ld_imm : look (tickOn 0x6A2B State.reset) (·.getV 10) = some 0x2B#8 := by decide
/-- AL3. -/
theorem test_add_imm_sets_no_flag :
    look (tickOn 0x7020 (start [(0, 0xF0#8)] [])) (fun t => (t.getV 0, t.getV vF)) = some (0x10#8, 0#8) := by decide
/-- AL6. -/
theorem test_ld_reg : look (tickOn 0x8450 (start [(5, 0x99#8)] [])) (·.getV 4) = some 0x99#8 := by decide
/-- AL7. -/
theorem test_or_keeps_flag :
    look (tickOn 0x8121 (start [(1, 0x0F#8), (2, 0xF0#8), (15, 1#8)] [])) (fun t => (t.getV 1, t.getV vF))
      = some (0xFF#8, 1#8) := by decide
/-- AL8. -/
theorem test_and : look (tickOn 0x8122 (start [(1, 0x3C#8), (2, 0x0F#8)] [])) (·.getV 1) = some 0x0C#8 := by decide
/-- AL9. -/
theorem test_xor : look (tickOn 0x8123 (start [(1, 0xFF#8), (2, 0x0F#8)] [])) (·.getV 1) = some 0xF0#8 := by decide
/-- AL12. -/
theorem test_add_carries :
    look (tickOn 0x8014 (start [(0, 0xFF#8), (1, 1#8)] [])) (fun t => (t.getV 0, t.getV vF)) = some (0#8, 1#8) := by decide
/-- AL15: x = 0xF. -/
theorem test_add_into_flag :
    look (tickOn 0x8F14 (start [(15, 0x10#8), (1, 0xF0#8)] [])) (·.getV vF) = some 1#8 := by decide
/-- AL17, and AL18: equal operands borrow nothing. -/
theorem test_sub :
    look (tickOn 0x8125 (start [(1, 5#8), (2, 7#8)] [])) (fun t => (t.getV 1, t.getV vF)) = some (0xFE#8, 0#8) ∧
      look (tickOn 0x8015 (start [(0, 3#8), (1, 3#8)] [])) (fun t => (t.getV 0, t.getV vF)) = some (0#8, 1#8) := by decide
/-- AL21: Vy is not read. -/
theorem test_shr :
    look (tickOn 0x8016 (start [(0, 0xFF#8)] [])) (fun t => (t.getV 0, t.getV vF)) = some (0x7F#8, 1#8) := by decide
/-- AL22: x = 0xF. -/
theorem test_shr_of_flag : look (tickOn 0x8F06 (start [(15, 3#8)] [])) (·.getV vF) = some 0#8 := by decide
/-- AL24. -/
theorem test_subn :
    look (tickOn 0x8017 (start [(0, 3#8), (1, 2#8)] [])) (fun t => (t.getV 0, t.getV vF)) = some (0xFF#8, 0#8) := by decide
/-- AL25. -/
theorem test_shl :
    look (tickOn 0x830E (start [(3, 0x81#8)] [])) (fun t => (t.getV 3, t.getV vF)) = some (2#8, 1#8) := by decide
/-- AL27: x = 0xF. -/
theorem test_shl_of_flag : look (tickOn 0x8F0E (start [(15, 0x80#8)] [])) (·.getV vF) = some 2#8 := by decide
/-- AL29, AL30: with a given draw. -/
theorem test_rnd_masks_the_draw :
    (randomMasked 0xA7#8 3 0x0F#8 State.reset).getV 3 = 0x07#8 ∧
      (randomMasked 0xFF#8 3 0x00#8 State.reset).getV 3 = 0x00#8 := by decide
/-- The draw is used up. -/
theorem test_rnd_uses_up_the_draw : look (tickOn 0xC30F State.reset) (·.draws) = some 1 := by decide

/-- MM1. -/
theorem test_ld_index : look (tickOn 0xA300 State.reset) (·.idx) = some 0x0300#16 := by decide
/-- MM2, MM3. -/
theorem test_add_index :
    look (tickOn 0xF21E { start [(2, 5#8)] [] with idx := 0x0FFE#16 }) (fun t => (t.idx, t.getV vF, t.halted))
        = some (0x1003#16, 0#8, false) ∧
      look (tickOn 0xF01E { start [(0, 2#8)] [] with idx := 0xFFFF#16 }) (·.idx) = some 0x0001#16 := by decide
/-- MM5. -/
theorem test_ld_font : look (tickOn 0xFF29 (start [(15, 0xFF#8)] [])) (·.idx) = some 0x04FB#16 := by decide
/-- MM8. -/
theorem test_ld_bcd :
    look (tickOn 0xF033 { start [(0, 0xFF#8)] [] with idx := 0x300#16 })
        (fun t => (t.mem.read 0x300, t.mem.read 0x301, t.mem.read 0x302, t.idx))
      = some (2#8, 5#8, 5#8, 0x300#16) := by decide
/-- MM10. -/
theorem test_ld_bcd_past_memory :
    look (tickOn 0xF233 { start [(2, 0xC8#8)] [] with idx := 0xFFE#16 })
        (fun t => (t.faultCause, t.faultInfo, t.mem.read 0xFFE, t.mem.read 0xFFF))
      = some (.memBounds, 0x1000#16, 0#8, 0#8) := by decide
/-- MM11. -/
theorem test_store_regs :
    look (tickOn 0xF355 { start [(0, 1#8), (1, 2#8), (2, 3#8), (3, 4#8), (4, 9#8)] [] with idx := 0x300#16 })
        (fun t => ([0x2FF, 0x300, 0x301, 0x302, 0x303, 0x304].map t.mem.read, t.idx))
      = some ([0#8, 1#8, 2#8, 3#8, 4#8, 0#8], 0x300#16) := by decide
/-- MM13. -/
theorem test_store_regs_past_memory :
    look (tickOn 0xF355 { start [(0, 1#8), (1, 2#8), (2, 3#8), (3, 4#8)] [] with idx := 0xFFD#16 })
        (fun t => (t.faultCause, t.faultInfo, [0xFFD, 0xFFE, 0xFFF].map t.mem.read))
      = some (.memBounds, 0x1000#16, [0#8, 0#8, 0#8]) := by decide
/-- MM14. -/
theorem test_load_regs :
    look (tickOn 0xF365 { start [(4, 9#8)] [(0x300, 1#8), (0x301, 2#8), (0x302, 3#8), (0x303, 4#8), (0x304, 5#8)] with
          idx := 0x300#16 })
        (fun t => ([0, 1, 2, 3, 4].map t.getV, t.idx))
      = some ([1#8, 2#8, 3#8, 4#8, 9#8], 0x300#16) := by decide
/-- MM16. -/
theorem test_load_regs_past_memory :
    look (tickOn 0xF365 { start [(0, 0x11#8)] [] with idx := 0xFFE#16 }) (fun t => (t.faultCause, t.faultInfo, t.getV 0))
      = some (.memBounds, 0x1000#16, 0x11#8) := by decide

/-- TM1. -/
theorem test_ld_from_dt :
    look (tickOn 0xF307 { State.reset with dt := 5#8 }) (fun t => (t.dt, t.getV 3)) = some (4#8, 4#8) := by decide
/-- TM5. -/
theorem test_ld_to_dt :
    look (tickOn 0xF315 { start [(3, 1#8)] [] with dt := 7#8 }) (·.dt) = some 1#8 := by decide
/-- TM6. -/
theorem test_ld_to_st :
    look (tickOn 0xF218 (start [(2, 2#8)] [])) (fun t => (t.st, audioOnOut t)) = some (2#8, true) := by decide

/-- DS15. -/
theorem test_cls :
    look (tickOn 0x00E0 { State.reset with fb := Vector.replicate 256 0xFF#8 }) (fun t => (fbRead 0 t, fbRead 255 t))
      = some (0#8, 0#8) := by decide
/-- DS16, DS18. -/
theorem test_clrfb :
    look (tickOn 0x00C2 { State.reset with fb := ((State.reset.fb.set 1 0xFF#8).set 2 0xFF#8).set 3 0xFF#8 })
        (fun t => (fbRead 1 t, fbRead 2 t, fbRead 3 t))
        = some (0#8, 0xFF#8, 0xFF#8) ∧
      look (tickOn 0x00C0 { State.reset with fb := State.reset.fb.set 0 0xFF#8 }) (fbRead 0) = some 0xFF#8 := by decide +kernel
/-- DS3. -/
theorem test_drw_wraps_right :
    look (tickOn 0xD011 { start [(0, 60#8)] [(0x300, 0xFF#8)] with idx := 0x300#16 })
        (fun t => (fbRead 0 t, fbRead 7 t, fbRead 8 t, t.getV vF))
      = some (0xF0#8, 0x0F#8, 0#8, 0#8) := by decide
/-- DS8. -/
theorem test_drw_collides :
    look (tickOn 0xD011 { start [(0, 7#8)] [(0x300, 0xC0#8)] with
          idx := 0x300#16, fb := State.reset.fb.set 0 0x01#8 })
        (fun t => (fbRead 0 t, fbRead 1 t, t.getV vF))
      = some (0#8, 0x80#8, 1#8) := by decide
/-- DS12. -/
theorem test_drw_past_memory :
    look (tickOn 0xD002 { start [(15, 1#8)] [] with idx := 0xFFF#16, fb := State.reset.fb.set 0 0xAA#8 })
        (fun t => (t.faultCause, t.faultInfo, t.getV vF, fbRead 0 t))
      = some (.memBounds, 0x1000#16, 1#8, 0xAA#8) := by decide
/-- DS11. -/
theorem test_drw_of_no_rows :
    look (tickOn 0xD000 { start [(15, 1#8)] [] with idx := 0x2000#16 }) (fun t => (t.halted, t.getV vF))
      = some (false, 0#8) := by decide
/-- DS13: VF is read as a coordinate before it is cleared. -/
theorem test_drw_reads_flag_register_first :
    look (tickOn 0xDF11 { start [(15, 10#8), (1, 3#8)] [(0x300, 0x80#8)] with idx := 0x300#16 })
        (fun t => (fbRead 25 t, t.getV vF))
      = some (0x20#8, 0#8) := by decide
/-- KP1, KP2. -/
theorem test_skp :
    look (tickOn 0xE59E { start [(5, 3#8)] [] with keysCur := 0x0008#16 }) (fun t => (t.pc, t.keysPrev))
        = some (0x204#16, 0x0008#16) ∧
      look (tickOn 0xE59E { start [(5, 3#8)] [] with keysCur := 0x0004#16 }) (·.pc) = some 0x202#16 := by decide
/-- KP6. -/
theorem test_skp_out_of_range :
    look (tickOn 0xE09E (start [(0, 0x10#8)] [])) (fun t => (t.faultCause, t.faultInfo, t.pc))
      = some (.keyRange, 0x0010#16, 0x200#16) := by decide
/-- KP3, KP4. -/
theorem test_sknp :
    look (tickOn 0xE5A1 (start [(5, 3#8)] [])) (·.pc) = some 0x204#16 ∧
      look (tickOn 0xE5A1 { start [(5, 3#8)] [] with keysCur := 0x0008#16 }) (·.pc) = some 0x202#16 := by decide
/-- KP7. -/
theorem test_sknp_out_of_range :
    look (tickOn 0xE0A1 (start [(0, 0xFF#8)] [])) (fun t => (t.faultCause, t.faultInfo)) = some (.keyRange, 0x00FF#16) := by decide
/-- KP8, KP14. -/
theorem test_ld_key_takes_lowest :
    look (tickOn 0xF20A { State.reset with keysCur := 0x0030#16, pc := 0x206#16 })
        (fun t => (t.getV 2, t.pc, t.keysPrev)) = some (4#8, 0x208#16, 0x0030#16) ∧
      look (tickOn 0xFF0A { State.reset with keysCur := 0x8000#16 }) (·.getV vF) = some 0x0F#8 := by decide
/-- KP10, KP11. -/
theorem test_ld_key_waits :
    look (tickOn 0xF00A { State.reset with keysCur := 5#16, keysPrev := 5#16 }) (·.pc) = some 0x200#16 ∧
      look (tickOn 0xF00A { State.reset with keysCur := 0#16, keysPrev := 3#16 }) (fun t => (t.pc, t.keysPrev))
        = some (0x200#16, 0#16) := by decide

/-- HO1, HO2, HO3. -/
theorem test_key_operations :
    look (perform (.setKeyMask 0x0010#16) { State.reset with keysCur := 1#16 }) (fun t => (t.keysPrev, t.keysCur))
        = some (1#16, 0x0010#16) ∧
      look (perform (.keyDown 6#16) { State.reset with keysCur := 1#16 }) (·.keysCur) = some 7#16 ∧
      look (perform (.keyUp 3#16) { State.reset with keysCur := 7#16 }) (·.keysCur) = some 4#16 := by decide
/-- HO7. -/
theorem test_reset_operation :
    look (perform .reset { start [(0, 5#8)] [] with halted := true, faultCause := .stackOverflow, faultInfo := 0x300#16 })
        (fun t => (t.halted, t.faultCause, t.faultInfo, t.getV 0, t.pc))
      = some (false, .noFault, 0#16, 0#8, 0x200#16) := by decide
/-- HO8. -/
theorem test_empty_load_is_rejected :
    look (perform (.loadProgram []) (start [(0, 5#8)] [])) (fun t => (t.reports, t.getV 0))
      = some ([.loadRejected 0], 5#8) := by decide
/-- The load of P1. -/
theorem test_load_places_bytes :
    look (perform (.loadProgram [0x60#8, 0x05#8, 0x61#8, 0x03#8, 0x80#8, 0x14#8]) State.reset)
        (fun t => ([0x1FF, 0x200, 0x201, 0x205, 0x206].map t.mem.read, t.pc))
      = some ([0#8, 0x60#8, 0x05#8, 0x14#8, 0#8], 0x200#16) := by decide
/-- A write of what an unlisted cell reads as removes the entry, so that equal memories are equal lists. -/
theorem test_memory_keeps_one_form :
    Memory.write (Memory.write [] 0x300 0x12#8) 0x300 0#8 = [] ∧
      Memory.write (Memory.write [] 0x301 1#8) 0x300 2#8 = Memory.write (Memory.write [] 0x300 2#8) 0x301 1#8 ∧
      State.reset.mem.wf = true := by decide

/-! ### Witnesses: states and operands that meet the hypotheses of the statements -/

/-- A block that a tick can advance, with the word `w` at PC. -/
def ready (w : Nat) (s : State) : State := s.withFetchWord 16 w

/-- DecodeOfEncodeReturnsInstruction: instructions of every format, and SYS words at the ends of the ranges left to it. -/
theorem witness_wellFormed :
    Instr.cls.wellFormed = true ∧ (Instr.jp 0xFFF#12).wellFormed = true ∧ (Instr.drwVxVyN 15 15 15).wellFormed = true ∧
      (Instr.clrfbN 15).wellFormed = true ∧ (Instr.sysNnn 0x000#12).wellFormed = true ∧
      (Instr.sysNnn 0x0BF#12).wellFormed = true ∧ (Instr.sysNnn 0x0D0#12).wellFormed = true ∧
      (Instr.sysNnn 0xFFF#12).wellFormed = true := by decide

/-- EncodeOfDecodedWordReturnsWord. -/
theorem witness_decoded :
    decode 0x0000#16 = .ok (.sysNnn 0x000#12) ∧ decode 0x00CF#16 = .ok (.clrfbN 15) ∧
      decode 0xFF65#16 = .ok (.ldVxMem 15) := by decide

/-- OpcodeMapRowsDecode, the last row: operands that are left to SYS. -/
theorem witness_sysOperand :
    (0x0EF#12 : Addr12) ≠ 0x0E0#12 ∧ (0x0EF#12 : Addr12) ≠ 0x0EE#12 ∧ (0x0EF#12 : Addr12).toNat / 16 ≠ 0x0C ∧
      (0x0BF#12 : Addr12) ≠ 0x0E0#12 ∧ (0x0BF#12 : Addr12) ≠ 0x0EE#12 ∧ (0x0BF#12 : Addr12).toNat / 16 ≠ 0x0C := by decide

/-- UnknownWordsAreTheElseLines: a word of each of the five lines, at the ends of the third. -/
theorem witness_unknownWords :
    decode 0x5001#16 = .error (.unknownOpcode 0x5001#16) ∧ decode 0x900F#16 = .error (.unknownOpcode 0x900F#16) ∧
      decode 0x8008#16 = .error (.unknownOpcode 0x8008#16) ∧ decode 0x800F#16 = .error (.unknownOpcode 0x800F#16) ∧
      decode 0xE09F#16 = .error (.unknownOpcode 0xE09F#16) ∧ decode 0xF066#16 = .error (.unknownOpcode 0xF066#16) := by decide

/-- StepRunsDecodedInstruction: at the load address, and at the last PC whose word lies in memory. -/
theorem witness_runningInstruction :
    (running (ready 0x6005 State.reset) ∧ fetchable (ready 0x6005 State.reset) ∧
        decode (wordAtPc (ready 0x6005 State.reset)) = .ok (.ldVxNn 0 0x05#8)) ∧
      running (ready 0x6005 { State.reset with pc := 0xFFE#16 }) ∧ fetchable (ready 0x6005 { State.reset with pc := 0xFFE#16 }) ∧
      decode (wordAtPc (ready 0x6005 { State.reset with pc := 0xFFE#16 })) = .ok (.ldVxNn 0 0x05#8) := by
  unfold running fetchable; decide

/-- UnknownWordIsReportedAndSkipped. -/
theorem witness_runningUnknown :
    running (ready 0x5121 State.reset) ∧ fetchable (ready 0x5121 State.reset) ∧
      decode (wordAtPc (ready 0x5121 State.reset)) = .error (.unknownOpcode 0x5121#16) := by
  unfold running fetchable; decide

/-- FetchPastMemoryFaults: the last byte of memory, and the two ends of the addresses outside. -/
theorem witness_fetchPastMemory :
    ∀ pc ∈ [0x0FFF#16, 0x1000#16, 0xFFFF#16],
      running { State.reset with pc := pc } ∧ ¬fetchable { State.reset with pc := pc } ∧
        State.reset.faultCause = .noFault := by
  intro pc hpc
  simp only [List.mem_cons, List.not_mem_nil, or_false] at hpc
  unfold running fetchable
  obtain rfl | rfl | rfl := hpc <;> decide

/-- TicksStopOnlyBeforeReset: a block of each of the three kinds. -/
theorem witness_startedAndHalted :
    ({ State.reset with started := false } : State).started = false ∧ State.reset.started = true ∧
      ({ State.reset with halted := true } : State).halted = true := by decide

/-- TimersLoseOnePerTick: an Fx15, an Fx18, an Fx07, and none of them. -/
theorem witness_timerTicks :
    (∃ t, step (ready 0xF307 { State.reset with dt := 5#8 }) = .next t) ∧
      decode (wordAtPc (ready 0xF307 { State.reset with dt := 5#8 })) = .ok (.ldVxDt 3) ∧
      (∃ t, step (ready 0xF215 (start [(2, 9#8)] [])) = .next t) ∧ (∃ t, step (ready 0xF218 (start [(2, 9#8)] [])) = .next t) ∧
      (∃ t, step (ready 0x0000 { State.reset with dt := 1#8, st := 0xFF#8 }) = .next t) ∧
      decode (wordAtPc (ready 0xF215 (start [(2, 9#8)] []))) = .ok (.ldDtVx 2) ∧
      decode (wordAtPc (ready 0xF218 (start [(2, 9#8)] []))) = .ok (.ldStVx 2) ∧
      decode (wordAtPc (ready 0x0000 { State.reset with dt := 1#8, st := 0xFF#8 })) = .ok (.sysNnn 0x000#12) ∧
      (∀ w s, running (ready w s)) ∧ fetchable (ready 0xF215 (start [(2, 9#8)] [])) ∧
      fetchable (ready 0xF218 (start [(2, 9#8)] [])) ∧ fetchable (ready 0xF307 { State.reset with dt := 5#8 }) :=
  ⟨⟨_, rfl⟩, by decide, ⟨_, rfl⟩, ⟨_, rfl⟩, ⟨_, rfl⟩, by decide, by decide, by decide,
    fun _ _ => ⟨rfl, rfl⟩, by unfold fetchable; decide, by unfold fetchable; decide, by unfold fetchable; decide⟩

/-- The states of a block that jumps to itself, tick after tick. -/
def selfJump : Nat → State
  | 0 => ready 0x1200 { State.reset with dt := 1#8 }
  | k + 1 => nextState (step (selfJump k))

/-- DelayTimerAfterTicks, for two ticks, one past the timer's end. -/
theorem witness_selfJump :
    (running (selfJump 0) ∧ step (selfJump 0) = .next (selfJump 1) ∧ decode (wordAtPc (selfJump 0)) = .ok (.jp 0x200#12)) ∧
      running (selfJump 1) ∧ step (selfJump 1) = .next (selfJump 2) ∧
      decode (wordAtPc (selfJump 1)) = .ok (.jp 0x200#12) :=
  ⟨⟨by unfold running; decide, rfl, by decide⟩, by unfold running; decide, rfl, by decide⟩

/-- PlacedWordRunsNext: the last PC that stays and the first that is moved, with the memory in order and a word of the table. -/
theorem witness_placedWord :
    State.reset.mem.wf = true ∧ decodeTableWord 16 0x6005 = some (.ldVxNn 0 0x05#8) ∧
      ({ State.reset with pc := 0x0FFE#16 } : State).pc.toNat + 1 < 0x1000 ∧
      ¬({ State.reset with pc := 0x0FFF#16 } : State).pc.toNat + 1 < 0x1000 := by decide
/-- Not a vector (log entry 6): a halted state whose PC no fetch can use. -/
theorem test_placed_word_moves_an_unusable_pc :
    look (tickOn 0x6005 { State.reset with pc := 0x0FFF#16, halted := true, dt := 2#8 }) (fun t => (t.getV 0, t.pc, t.dt))
      = some (0x05#8, 0x0202#16, 1#8) := by decide

/-- FaultsAreExactlyTheTable: at each bound, the last operand that completes and the first that faults. -/
theorem witness_faultBounds :
    faultRaised .ret State.reset = some { cause := .stackUnderflow, info := 0#16 } ∧
      faultRaised .ret { State.reset with sp := 1 } = none ∧
      faultRaised (.call 0x300#12) { State.reset with sp := 16 } = some { cause := .stackOverflow, info := 0x300#16 } ∧
      faultRaised (.call 0x300#12) { State.reset with sp := 15 } = none ∧
      faultRaised (.skpVx 0) (start [(0, 0x10#8)] []) = some { cause := .keyRange, info := 0x10#16 } ∧
      faultRaised (.skpVx 0) (start [(0, 0x0F#8)] []) = none ∧
      faultRaised (.ldBVx 0) { State.reset with idx := 0xFFE#16 } = some { cause := .memBounds, info := 0x1000#16 } ∧
      faultRaised (.ldBVx 0) { State.reset with idx := 0xFFD#16 } = none ∧
      faultRaised (.ldMemVx 3) { State.reset with idx := 0x1001#16 } = some { cause := .memBounds, info := 0x1001#16 } ∧
      faultRaised (.ldVxMem 15) { State.reset with idx := 0xFF0#16 } = none ∧
      faultRaised (.drwVxVyN 0 0 2) { State.reset with idx := 0xFFF#16 } = some { cause := .memBounds, info := 0x1000#16 } ∧
      faultRaised (.drwVxVyN 0 0 1) { State.reset with idx := 0xFFF#16 } = none ∧
      faultRaised (.drwVxVyN 0 0 0) { State.reset with idx := 0xFFFF#16 } = none := by decide

/-- StepKeepsInvariant and OperationsKeepInvariant: a running block, and one that has taken a fault. -/
theorem witness_invariant :
    Inv State.reset ∧ (∃ t, step State.reset = .next t) ∧ (∃ t, perform .reset State.reset = .next t) ∧
      Inv { State.reset with halted := true, faultCause := .memBounds, faultInfo := 0x1000#16 } ∧
      ∃ t, step { State.reset with halted := true, faultCause := .memBounds, faultInfo := 0x1000#16 } = .next t :=
  ⟨⟨by decide, rfl, by decide⟩, ⟨_, rfl⟩, ⟨_, rfl⟩, ⟨by decide, Nat.le_refl _, fun _ => rfl⟩, ⟨_, rfl⟩⟩

/-- StartedBlockNeverStops. -/
theorem witness_started : State.reset.started = true := rfl

/-- HaltLastsUntilReset: a tick, a key operation, and a rejected load. -/
theorem witness_haltedRun :
    ({ State.reset with halted := true } : State).halted = true ∧
      (∀ o ∈ [Operation.tick, .setKeyMask 1#16, .loadProgram []],
        o ≠ .reset ∧ ∀ bytes, o = .loadProgram bytes → bytes.length = 0 ∨ 3584 < bytes.length) ∧
      ∃ t, performAll [.tick, .setKeyMask 1#16, .loadProgram []] { State.reset with halted := true } = .next t :=
  ⟨rfl, by simp, _, rfl⟩

/-- OnlyIndexInstructionsChangeIndex. -/
theorem witness_indexChange :
    look (tickOn 0xA300 State.reset) (fun t => decide (t.idx ≠ (ready 0xA300 State.reset).idx)) = some true := by decide
/-- OnlyStoresChangeMemory: the last byte of an Fx33 and of an Fx55. -/
theorem witness_memoryChange :
    (ready 0xF033 { start [(0, 0xFF#8)] [] with idx := 0x300#16 }).mem.wf = true ∧
      look (tickOn 0xF033 { start [(0, 0xFF#8)] [] with idx := 0x300#16 })
        (fun t => decide (t.mem.read 0x302
          ≠ (ready 0xF033 { start [(0, 0xFF#8)] [] with idx := 0x300#16 }).mem.read 0x302)) = some true ∧
      look (tickOn 0xF155 { start [(1, 7#8)] [] with idx := 0x300#16 })
        (fun t => decide (t.mem.read 0x301
          ≠ (ready 0xF155 { start [(1, 7#8)] [] with idx := 0x300#16 }).mem.read 0x301)) = some true := by decide
/-- OnlyCallAndReturnChangeStack: SP up, SP down, and an entry. -/
theorem witness_stackChange :
    look (tickOn 0x2300 State.reset) (fun t => (decide (t.sp ≠ (ready 0x2300 State.reset).sp),
        decide (t.stack[0]? ≠ (ready 0x2300 State.reset).stack[0]?))) = some (true, true) ∧
      look (tickOn 0x00EE { State.reset with sp := 1 })
        (fun t => decide (t.sp ≠ (ready 0x00EE { State.reset with sp := 1 }).sp)) = some true := by decide
/-- OnlyDisplayInstructionsChangeFramebuffer: a byte of it that changes. -/
theorem witness_framebufferChange :
    look (tickOn 0xD011 { start [] [(0x300, 0xF0#8)] with idx := 0x300#16 })
      (fun t => decide (fbRead 0 t ≠ fbRead 0 (ready 0xD011 { start [] [(0x300, 0xF0#8)] with idx := 0x300#16 })))
      = some true := by decide
/-- OnlyNamedInstructionsChangeFlagRegister. -/
theorem witness_flagChange :
    look (tickOn 0x8006 (start [(0, 1#8)] [])) (fun t => decide (t.getV vF ≠ (ready 0x8006 (start [(0, 1#8)] [])).getV vF))
      = some true := by decide

/-- ReturnPopsTopEntry and CallPushesReturnAddress: the ends of their ranges of SP. -/
theorem witness_stackRoom :
    ({ State.reset with sp := 1 } : State).sp ≠ 0 ∧ ({ State.reset with sp := 16 } : State).sp ≠ 0 ∧
      State.reset.sp ≠ 16 ∧ ({ State.reset with sp := 15 } : State).sp ≠ 16 := by decide
/-- ReturnGoesBackAfterCall, with u the state after the call. -/
theorem witness_callThenReturn :
    State.reset.sp ≠ 16 ∧ exec (.call 0x300#12) State.reset = .next (nextState (exec (.call 0x300#12) State.reset)) :=
  ⟨by decide, rfl⟩
/-- JumpGoesToTarget: the jump to the last address, and the jump to itself. -/
theorem witness_jump :
    running State.reset ∧ State.reset.faultCause = .noFault ∧
      running (ready 0x1200 State.reset) ∧ fetchable (ready 0x1200 State.reset) ∧
      (ready 0x1200 State.reset).pc.toNat = (0x200#12 : Addr12).toNat ∧
      wordAtPc (ready 0x1200 State.reset) = 0x1#4 ++ 0x200#12 := by
  unfold running fetchable; decide

/-- SkipsOnImmediate: the skip to the end of memory. -/
theorem witness_skipToEnd :
    ({ start [(3, 0x42#8)] [] with pc := 0xFFC#16 } : State).pc = 0xFFC#16 ∧
      ({ start [(3, 0x42#8)] [] with pc := 0xFFC#16 } : State).getV 3 = 0x42#8 ∧
      running { start [(3, 0x42#8)] [] with pc := 0xFFC#16 } ∧ State.reset.faultCause = .noFault := by
  unfold running; decide

/-- AddSetsCarry, SubtractSetsNoBorrow and ShiftsSetBitShiftedOut: a destination that is VF, and one that is not. -/
theorem witness_flagDestination : (0 : Reg) ≠ vF ∧ (14 : Reg) ≠ vF ∧ (15 : Reg) = vF := by decide
/-- RandomByteIsMasked: a bit where the mask is 0. -/
theorem witness_maskBit : (0x0F#8 : Byte).getLsbD 4 = false := by decide

/-- StoreDecimalDigits, StoreRegisters, LoadRegisters and StoredRegistersLoadBack: the last index within memory. -/
theorem witness_lastIndex :
    State.reset.mem.wf = true ∧ dataAddress { State.reset with idx := 0xFFD#16 } 2 < 0x1000 ∧
      dataAddress { State.reset with idx := 0xFF0#16 } (15 : Reg).val < 0x1000 ∧
      dataAddress { State.reset with idx := 0xFFF#16 } (0 : Reg).val < 0x1000 := by decide
/-- StoredRegistersLoadBack: registers other than those stored, in the same memory at the same I. -/
theorem witness_storeThenLoad :
    State.reset.mem.wf = true ∧ dataAddress { State.reset with idx := 0xFFC#16 } (3 : Reg).val < 0x1000 ∧
      exec (.ldMemVx 3) { State.reset with idx := 0xFFC#16 }
        = .next (nextState (exec (.ldMemVx 3) { State.reset with idx := 0xFFC#16 })) ∧
      ((nextState (exec (.ldMemVx 3) { State.reset with idx := 0xFFC#16 })).setV 0 9#8).mem
        = (nextState (exec (.ldMemVx 3) { State.reset with idx := 0xFFC#16 })).mem ∧
      ((nextState (exec (.ldMemVx 3) { State.reset with idx := 0xFFC#16 })).setV 0 9#8).idx = 0xFFC#16 :=
  ⟨by decide, by decide, rfl, rfl, rfl⟩

/-- The state of MM17: Fx55 stores 1200 over the word after it. -/
def selfModify : State := { start [(0, 0x12#8), (1, 0x00#8)] [] with idx := 0x202#16 }
/-- StoredInstructionIsFetched, with x = l = 1 and k = 0. -/
theorem witness_selfModify :
    selfModify.mem.wf = true ∧ running selfModify ∧ dataAddress selfModify (1 : Reg).val < 0x1000 ∧
      exec (.ldMemVx 1) selfModify = .next (nextState (exec (.ldMemVx 1) selfModify)) ∧ (1 : Reg).val = (0 : Reg).val + 1 ∧
      (1 : Reg) ≤ 1 ∧ (nextState (exec (.ldMemVx 1) selfModify)).pc.toNat = dataAddress selfModify (0 : Reg).val ∧
      decode (selfModify.getV 0 ++ selfModify.getV 1) = .ok (.jp 0x200#12) :=
  ⟨by decide, by unfold running; decide, by decide, rfl, by decide, by decide, by decide, by decide⟩

/-- The tick of MM17 and the ticks after it: the stored jump to 0x200, and so on. -/
def selfModifyRun : Nat → State
  | 0 => ready 0xF155 selfModify
  | k + 1 => nextState (step (selfModifyRun k))
/-- StoredBytesAreFetchedLater, with j = 1: Fx55 stores at 0x202 and 0x203, and the tick after it is a JP, which stores nothing. -/
theorem witness_storeThenTick :
    (selfModifyRun 0).mem.wf = true ∧ running (selfModifyRun 0) ∧ fetchable (selfModifyRun 0) ∧
      storesByte (selfModifyRun 0) 0x202 0x12#8 ∧
      (step (selfModifyRun 0) = .next (selfModifyRun 1) ∧ step (selfModifyRun 1) = .next (selfModifyRun 2)) ∧
      (∀ c, ¬storesByte (selfModifyRun 1) 0x202 c) ∧ (selfModifyRun 1).pc.toNat = 0x202 := by
  have jump : decode (wordAtPc (selfModifyRun 1)) = .ok (.jp 0x200#12) := by decide
  refine ⟨by decide, ⟨rfl, rfl⟩, by unfold fetchable; decide, ⟨1, .inr ⟨by decide, by decide, 0, by decide⟩⟩, ⟨rfl, rfl⟩, ?_,
    by decide⟩
  rintro c ⟨x, ⟨h, -⟩ | ⟨h, -⟩⟩ <;> rw [jump] at h <;> cases h
/-- StoredBytesAreFetchedLater: the last byte of an Fx33 at the end of memory, and of an Fx55 there. -/
theorem witness_storesByte :
    storesByte (ready 0xF033 { start [(0, 0xFF#8)] [] with idx := 0xFFD#16 }) 0xFFF 5#8 ∧
      storesByte (ready 0xF155 { start [(1, 7#8)] [] with idx := 0xFFE#16 }) 0xFFF 7#8 :=
  ⟨⟨0, .inl ⟨by decide, by decide, .inr (.inr (by decide))⟩⟩, ⟨1, .inr ⟨by decide, by decide, 1, by decide⟩⟩⟩

/-- A sprite of one row with one set bit, over one set pixel at the right edge. -/
def spriteState : State :=
  { start [(0, 60#8)] [(0xFFF, 0x81#8)] with idx := 0xFFF#16, fb := State.reset.fb.set 7 0x08#8 }
/-- DrawXorsSprite: the last index with one row, an index outside with none, a pixel under the sprite that is on, one under it
across the edge that is off, and one beside it. -/
theorem witness_draw :
    ((1 : Count) = 0 ∨ spriteState.idx.toNat + (1 : Count).val ≤ 0x1000) ∧
      ((0 : Count) = 0 ∨ ({ spriteState with idx := 0xFFFF#16 } : State).idx.toNat + (0 : Count).val ≤ 0x1000) ∧
      (spriteTouches spriteState 0 1 1 60 0 ∧ pixel spriteState.fb 60 0 = true) ∧
      (spriteTouches spriteState 0 1 1 3 0 ∧ pixel spriteState.fb 3 0 = false) ∧ ¬spriteTouches spriteState 0 1 1 61 0 :=
  ⟨by decide, by decide, ⟨⟨0, 0, by decide⟩, by decide⟩, ⟨⟨0, 7, by decide⟩, by decide⟩, by
    rintro ⟨r, c, hr, hc, hbit, hx, -⟩
    have hr : r = 0 := by omega
    subst hr
    change 61 = (60 + c) % 64 at hx
    have hc : c = 1 := by omega
    subst hc
    exact absurd hbit (by decide)⟩
/-- DrawTwiceRestores, with u the state after the first draw: onto an empty screen, where the clause on a draw that meets no set pixel
applies. -/
theorem witness_drawTwice :
    ((1 : Count) = 0 ∨ { spriteState with fb := State.reset.fb }.idx.toNat + (1 : Count).val ≤ 0x1000) ∧
      (∃ t, exec (.drwVxVyN 0 1 1) { spriteState with fb := State.reset.fb } = .next t ∧
        t.mem = spriteState.mem ∧ t.idx = spriteState.idx ∧ t.getV 0 = spriteState.getV 0 ∧ t.getV 1 = spriteState.getV 1) ∧
      ∀ px py, spriteTouches { spriteState with fb := State.reset.fb } 0 1 1 px py → pixel State.reset.fb px py = false :=
  ⟨by decide, ⟨_, rfl, by decide⟩, fun px py _ => by simp [pixel, State.reset]⟩

/-- KeySkips: the last key number. -/
theorem witness_lastKey : ((start [(0, 0x0F#8)] []).getV 0).toNat ≤ 0x0F := by decide
/-- KeyWaitTakesLowestKey: a change with a key pressed, no change, and a change to no key. -/
theorem witness_keyMasks :
    (({ State.reset with keysCur := 0x8000#16 } : State).keysCur ≠ 0x0000#16 ∧
        ({ State.reset with keysCur := 0x8000#16 } : State).keysCur ≠ State.reset.keysPrev) ∧
      State.reset.keysCur = State.reset.keysPrev ∧
      (State.reset.keysCur = 0x0000#16 ∧ State.reset.keysCur ≠ ({ State.reset with keysPrev := 3#16 } : State).keysPrev) := by
  decide

/-- LoadPlacesProgram: both ends of the lengths it accepts. -/
theorem witness_acceptedLengths :
    1 ≤ (List.replicate 1 0xAB#8).length ∧ (List.replicate 3584 0xAB#8).length ≤ 3584 ∧
      1 ≤ (List.replicate 3584 0xAB#8).length ∧ perform .reset State.reset = .next (resetOp State.reset) :=
  ⟨by decide, Nat.le_of_eq List.length_replicate, by rw [List.length_replicate]; decide, rfl⟩
/-- BadLoadIsRejected: both ends of the lengths it rejects. -/
theorem witness_rejectedLengths :
    ([] : List Byte).length = 0 ∧ 3584 < (List.replicate 3585 0xAB#8).length := ⟨rfl, by rw [List.length_replicate]; decide⟩
/-- OutputsShowState: the last pixel and its byte. -/
theorem witness_lastPixel : (255 : Fin 256).val = (31 : Fin 32).val * 8 + (63 : Fin 64).val / 8 := by decide

end Sys2Proof.Machine.Tests
end

section
/-! Register loads and the 8-bit ALU without a flag (42_alu.md R152 to R158): the words of their encodings, and what an
instruction that writes the one register Vx does and leaves unchanged. -/

namespace Sys2Proof.Machine

/-! ### The words of the encodings -/

/-- Joining bit vectors shifts the upper one past the lower one. -/
theorem toNat_append_eq_add {m n : Nat} (a : BitVec m) (b : BitVec n) : (a ++ b).toNat = a.toNat * 2 ^ n + b.toNat := by
  rw [BitVec.toNat_append, ← Nat.shiftLeft_add_eq_or_of_lt b.isLt, Nat.shiftLeft_eq]

/-- Four fields side by side, as a table of encodings writes them, are the word of the format with x, y and n. -/
theorem fields_eq_wordXYN {h n : Nat} (hh : h < 16) (hn : n < 16) (x y : Reg) :
    (BitVec.ofNat 4 h ++ BitVec.ofNat 4 x.val ++ BitVec.ofNat 4 y.val ++ BitVec.ofNat 4 n : Word) =
      wordXYN h x y ⟨n, hn⟩ := by
  apply BitVec.eq_of_toNat_eq
  rw [wordXYN_toNat hh]
  simp only [toNat_append_eq_add, BitVec.toNat_ofNat]
  omega

/-- Three fields side by side are the word of the format with x and nn. -/
theorem fields_eq_wordXNN {h : Nat} (hh : h < 16) (x : Reg) (nn : Byte) :
    (BitVec.ofNat 4 h ++ BitVec.ofNat 4 x.val ++ nn : Word) = wordXNN h x nn := by
  apply BitVec.eq_of_toNat_eq
  rw [wordXNN_toNat hh]
  simp only [toNat_append_eq_add, BitVec.toNat_ofNat]
  omega

/-- A word of family 0x8 is decoded by its low digit, whatever x and y are (30_encoding.md R73). -/
theorem decode_wordXYN_8 (x y n : Fin 16) : decode (wordXYN 0x8 x y n) = decodeFamily8 (wordXYN 0x8 x y n) :=
  decode_family8 (fieldH_wordXYN (by decide) x y n)

theorem decode_encode_ldVxNn (x : Reg) (nn : Byte) : decode (encode (.ldVxNn x nn)) = .ok (.ldVxNn x nn) := by
  rw [encode, decode_family6 (fieldH_wordXNN (by decide) x nn), fieldX_wordXNN (by decide), fieldNN_wordXNN (by decide)]

theorem decode_encode_addVxNn (x : Reg) (nn : Byte) : decode (encode (.addVxNn x nn)) = .ok (.addVxNn x nn) := by
  rw [encode, decode_family7 (fieldH_wordXNN (by decide) x nn), fieldX_wordXNN (by decide), fieldNN_wordXNN (by decide)]

theorem decode_encode_ldVxVy (x y : Reg) : decode (encode (.ldVxVy x y)) = .ok (.ldVxVy x y) := by
  simp [encode, decode_wordXYN_8, decodeFamily8, fieldX_wordXYN, fieldY_wordXYN, fieldN_wordXYN]

theorem decode_encode_orVxVy (x y : Reg) : decode (encode (.orVxVy x y)) = .ok (.orVxVy x y) := by
  simp [encode, decode_wordXYN_8, decodeFamily8, fieldX_wordXYN, fieldY_wordXYN, fieldN_wordXYN]

theorem decode_encode_andVxVy (x y : Reg) : decode (encode (.andVxVy x y)) = .ok (.andVxVy x y) := by
  simp [encode, decode_wordXYN_8, decodeFamily8, fieldX_wordXYN, fieldY_wordXYN, fieldN_wordXYN]

theorem decode_encode_xorVxVy (x y : Reg) : decode (encode (.xorVxVy x y)) = .ok (.xorVxVy x y) := by
  simp [encode, decode_wordXYN_8, decodeFamily8, fieldX_wordXYN, fieldY_wordXYN, fieldN_wordXYN]

/-! ### Writing one register -/

/-- The sum of ADD is taken modulo 256 (42_alu.md R150). -/
@[simp] theorem aluAdd_toNat (a b : Byte) : (aluAdd a b).toNat = (a.toNat + b.toNat) % 256 := BitVec.toNat_ofNat ..

/-- The frame of an instruction whose effect is `V[x] <- b`. -/
theorem writesAtMost_setV (s : State) (x : Reg) (b : Byte) :
    WritesAtMost { regs := [x] } s (s.advance.setV x b).latchKeys := by
  constructor
  case regs =>
    intro r hr
    rw [State.getV_latchKeys, State.getV_setV, if_neg (List.ne_of_not_mem_cons hr), State.getV_advance]
  all_goals simp

/-- An instruction whose effect is `V[x] <- result` completes: Vx has every property `P` the result has, PC is past the
instruction's word, and nothing else is written. -/
theorem runInstruction_setV (result : State → Byte) (x : Reg) (s : State) (P : Byte → Prop) (hP : P (result s.advance)) :
    ∃ t, runInstruction (fun t => .ok (t.setV x (result t))) s = .next t ∧ P (t.getV x) ∧ t.pc = s.pc + 2 ∧
      WritesAtMost { regs := [x] } s t := by
  refine ⟨(s.advance.setV x (result s.advance)).latchKeys, runInstruction_pure _ s, ?_, ?_, writesAtMost_setV s x _⟩
  · rwa [State.getV_latchKeys, State.getV_setV, if_pos rfl]
  · rw [State.latchKeys_pc, State.setV_pc, State.advance_pc]

/-! ### The statements -/

/-- Settles O33: the effect of LD Vx, nn is the one register write. -/
theorem loadImmediate : Obligations.LoadImmediate := by
  intro x nn
  refine ⟨?decodes, fun s => ?runs⟩
  case decodes => rw [fields_eq_wordXNN (by decide)]; exact decode_encode_ldVxNn x nn
  case runs => exact runInstruction_setV (fun _ => nn) x s (· = nn) rfl

/-- Settles O34: the byte written is `aluAdd` of Vx and nn, a sum modulo 256. -/
theorem addImmediateWraps : Obligations.AddImmediateWraps := by
  intro x nn
  refine ⟨?decodes, fun s => ?runs⟩
  case decodes => rw [fields_eq_wordXNN (by decide)]; exact decode_encode_addVxNn x nn
  case runs =>
    exact runInstruction_setV (fun t => aluAdd (t.getV x) nn) x s
      (fun b => b.toNat = ((s.getV x).toNat + nn.toNat) % 256) (aluAdd_toNat _ _)

/-- Settles O35: the effect of LD Vx, Vy is the one register write. -/
theorem copyRegister : Obligations.CopyRegister := by
  intro x y
  refine ⟨?decodes, fun s => ?runs⟩
  case decodes => rw [fields_eq_wordXYN (by decide) (by decide)]; exact decode_encode_ldVxVy x y
  case runs => exact runInstruction_setV (fun t => t.getV y) x s (· = s.getV y) (State.getV_advance s y)

/-- Settles O36: each byte written is the model's bitwise operation on Vx and Vy, read bit by bit. -/
theorem bitwiseOperations : Obligations.BitwiseOperations := by
  intro x y
  refine ⟨?decodesOr, ?decodesAnd, ?decodesXor, fun s => ⟨?or, ?and, ?xor⟩⟩
  case decodesOr => rw [fields_eq_wordXYN (by decide) (by decide)]; exact decode_encode_orVxVy x y
  case decodesAnd => rw [fields_eq_wordXYN (by decide) (by decide)]; exact decode_encode_andVxVy x y
  case decodesXor => rw [fields_eq_wordXYN (by decide) (by decide)]; exact decode_encode_xorVxVy x y
  case or =>
    exact runInstruction_setV (fun t => t.getV x ||| t.getV y) x s
      (fun b => ∀ k, b.getLsbD k = ((s.getV x).getLsbD k || (s.getV y).getLsbD k)) fun _ => BitVec.getLsbD_or
  case and =>
    exact runInstruction_setV (fun t => t.getV x &&& t.getV y) x s
      (fun b => ∀ k, b.getLsbD k = ((s.getV x).getLsbD k && (s.getV y).getLsbD k)) fun _ => BitVec.getLsbD_and
  case xor =>
    exact runInstruction_setV (fun t => t.getV x ^^^ t.getV y) x s
      (fun b => ∀ k, b.getLsbD k = ((s.getV x).getLsbD k ^^ (s.getV y).getLsbD k)) fun _ => BitVec.getLsbD_xor

end Sys2Proof.Machine
end

section
/-! The index register loaded (43_index_memory.md R181): the word of the encoding, and what an instruction that writes I alone
does and leaves unchanged. -/

namespace Sys2Proof.Machine

/-! ### The word of the encoding -/

/-- Two fields side by side are the word of the format with nnn. -/
theorem fields_eq_wordNNN {h : Nat} (hh : h < 16) (nnn : Addr12) :
    (BitVec.ofNat 4 h ++ nnn : Word) = wordNNN h nnn := by
  apply BitVec.eq_of_toNat_eq
  rw [wordNNN_toNat hh, toNat_append_eq_add, BitVec.toNat_ofNat]
  omega

theorem decode_encode_ldINnn (nnn : Addr12) : decode (encode (.ldINnn nnn)) = .ok (.ldINnn nnn) := by
  rw [encode, decode_familyA (fieldH_wordNNN (by decide) nnn), fieldNNN_wordNNN (by decide)]

/-! ### Writing I -/

/-- A 12-bit address keeps its value in a 16-bit word (30_encoding.md R72). -/
@[simp] theorem zextAddr_toNat (nnn : Addr12) : (zextAddr nnn).toNat = nnn.toNat :=
  BitVec.toNat_setWidth_of_le (by decide)

/-- The frame of an instruction whose effect is `I <- a`. -/
theorem writesAtMost_setIdx (s : State) (a : Word) : WritesAtMost { index := true } s (s.advance.setIdx a).latchKeys := by
  constructor
  case regs => intro r _; rw [State.getV_latchKeys, State.getV_setIdx, State.getV_advance]
  all_goals simp

/-- An instruction whose effect is `I <- result` completes: I has every property `P` the result has, PC is past the
instruction's word, and nothing else is written. -/
theorem runInstruction_setIdx (result : State → Word) (s : State) (P : Word → Prop) (hP : P (result s.advance)) :
    ∃ t, runInstruction (fun t => .ok (t.setIdx (result t))) s = .next t ∧ P t.idx ∧ t.pc = s.pc + 2 ∧
      WritesAtMost { index := true } s t := by
  refine ⟨(s.advance.setIdx (result s.advance)).latchKeys, runInstruction_pure _ s, ?_, ?_, writesAtMost_setIdx s _⟩
  · rwa [State.latchKeys_idx, State.setIdx_idx]
  · rw [State.latchKeys_pc, State.setIdx_pc, State.advance_pc]

/-! ### The statement -/

/-- Settles O41: the effect of LD I, nnn is the one write of I, and nnn keeps its value when widened to 16 bits. -/
theorem loadIndex : Obligations.LoadIndex := by
  intro nnn
  refine ⟨?decodes, fun s => ?runs⟩
  case decodes => rw [fields_eq_wordNNN (by decide)]; exact decode_encode_ldINnn nnn
  case runs => exact runInstruction_setIdx (fun _ => zextAddr nnn) s (·.toNat = nnn.toNat) (zextAddr_toNat nnn)

end Sys2Proof.Machine
end

section
/-! The timer instructions (44_timers.md R201 to R203): the words of their encodings, and what an instruction that loads one
timer does and leaves unchanged. -/

namespace Sys2Proof.Machine

/-! ### The words of the encodings -/

/-- A word of family 0xF is decoded by its low byte, whatever x is (30_encoding.md R73). -/
theorem decode_wordXNN_F (x : Reg) (nn : Byte) : decode (wordXNN 0xF x nn) = decodeFamilyF (wordXNN 0xF x nn) :=
  decode_familyF (fieldH_wordXNN (by decide) x nn)

theorem decode_encode_ldVxDt (x : Reg) : decode (encode (.ldVxDt x)) = .ok (.ldVxDt x) := by
  simp [encode, decode_wordXNN_F, decodeFamilyF, fieldX_wordXNN, fieldNN_wordXNN]

theorem decode_encode_ldDtVx (x : Reg) : decode (encode (.ldDtVx x)) = .ok (.ldDtVx x) := by
  simp [encode, decode_wordXNN_F, decodeFamilyF, fieldX_wordXNN, fieldNN_wordXNN]

theorem decode_encode_ldStVx (x : Reg) : decode (encode (.ldStVx x)) = .ok (.ldStVx x) := by
  simp [encode, decode_wordXNN_F, decodeFamilyF, fieldX_wordXNN, fieldNN_wordXNN]

/-! ### Loading a timer -/

/-- LD DT, Vx raises no fault. -/
theorem execLdDtVx_eq (x : Reg) (s : State) : execLdDtVx x s = .next { s.advance with dt := s.getV x }.latchKeys :=
  runInstruction_pure (fun t => { t with dt := t.getV x }) s

/-- LD ST, Vx raises no fault. -/
theorem execLdStVx_eq (x : Reg) (s : State) : execLdStVx x s = .next { s.advance with st := s.getV x }.latchKeys :=
  runInstruction_pure (fun t => { t with st := t.getV x }) s

/-- The frame of an instruction whose effect is `DT <- b`. -/
theorem writesAtMost_dt (s : State) (b : Byte) :
    WritesAtMost { delayTimer := true } s { s.advance with dt := b }.latchKeys := by
  constructor
  case regs => exact fun r _ => State.getV_congr rfl r
  all_goals simp

/-- The frame of an instruction whose effect is `ST <- b`. -/
theorem writesAtMost_st (s : State) (b : Byte) :
    WritesAtMost { soundTimer := true } s { s.advance with st := b }.latchKeys := by
  constructor
  case regs => exact fun r _ => State.getV_congr rfl r
  all_goals simp

/-- The audio output is a function of ST alone (60_exceptions.md R277). -/
theorem audioOnOut_iff (s : State) : audioOnOut s = true ↔ s.st ≠ 0 := bne_iff_ne

/-! ### The statement -/

/-- Settles O48: Fx07 is one register write, Fx15 and Fx18 are one timer write each, and `audio_on` reads the ST just
written. -/
theorem timerInstructions : Obligations.TimerInstructions := by
  intro x
  refine ⟨?decodesReadDt, ?decodesLoadDt, ?decodesLoadSt, fun s => ⟨?readDt, ?loadDt, ?loadSt⟩⟩
  case decodesReadDt => rw [fields_eq_wordXNN (by decide)]; exact decode_encode_ldVxDt x
  case decodesLoadDt => rw [fields_eq_wordXNN (by decide)]; exact decode_encode_ldDtVx x
  case decodesLoadSt => rw [fields_eq_wordXNN (by decide)]; exact decode_encode_ldStVx x
  case readDt => exact runInstruction_setV State.dt x s (· = s.dt) (State.advance_dt s)
  case loadDt => exact ⟨_, (exec_ldDtVx x s).trans (execLdDtVx_eq x s), rfl, rfl, writesAtMost_dt s _⟩
  case loadSt => exact ⟨_, (exec_ldStVx x s).trans (execLdStVx_eq x s), rfl, audioOnOut_iff _, rfl, writesAtMost_st s _⟩

end Sys2Proof.Machine
end

section
/-! Clearing the framebuffer (45_display.md R212, R214): the words of CLS and CLRFB n, the cleared bytes as pixels, and what an
instruction that writes the framebuffer alone does and leaves unchanged. -/

namespace Sys2Proof.Machine

/-! ### The words of the encodings -/

/-- No family but 0x0 holds CLS: in every other family each branch of the decoder ends in another instruction or in a
rejection (30_encoding.md R73). -/
theorem decode_ne_cls_of_fieldH_ne {op : Word} (hfamily : fieldH op ≠ 0x0) : decode op ≠ .ok .cls := by
  rw [decode, if_neg hfamily]
  simp [decodeFamily5, decodeFamily8, decodeFamily9, decodeFamilyE, decodeFamilyF, ite_eq_iff]

/-- CLS has one word. -/
theorem decode_eq_cls_iff (op : Word) : decode op = .ok .cls ↔ op = 0x00E0#16 := by
  constructor
  · intro h
    have hfamily : fieldH op = 0x0 := by_contra fun hne => decode_ne_cls_of_fieldH_ne hne h
    rw [decode_family0 hfamily] at h
    rcases decodeFamily0_cases op with ⟨hop, -⟩ | ⟨-, hd⟩ | ⟨-, hd⟩ | ⟨-, -, -, hd⟩
    · exact hop
    all_goals rw [hd] at h; cases h
  · rintro rfl
    decide

/-- The words of CLRFB n are 0x00C0 to 0x00CF (30_encoding.md R75). -/
theorem decode_of_toNat_clrfbN {op : Word} {n : Count} (h : op.toNat = 0xC0 + n.val) : decode op = .ok (.clrfbN n) := by
  have hfamily : fieldH op = 0x0 := Fin.ext (by rw [fieldH_val, Fin.val_zero]; omega)
  have hn : fieldN op = n := Fin.ext (by rw [fieldN_val]; omega)
  rw [decode_family0 hfamily]
  rcases decodeFamily0_cases op with ⟨rfl, -⟩ | ⟨rfl, -⟩ | ⟨-, hd⟩ | ⟨-, -, hupper, -⟩
  · bv_omega
  · bv_omega
  · rw [hd, hn]
  · omega

/-! ### Writing the framebuffer -/

/-- A pixel is among the first 8n, in row-major order, exactly if its byte is among the first n (45_display.md R210). -/
theorem byteIndex_lt_iff (px : Fin 64) (py : Fin 32) (n : Nat) :
    (byteIndex px py).val < n ↔ py.val * 64 + px.val < 8 * n := by
  simp only [byteIndex]
  omega

/-- Clearing the first n bytes turns off the first 8n pixels and keeps the others. -/
theorem pixel_clearFirst (fb : Framebuffer) (n : Nat) (px : Fin 64) (py : Fin 32) :
    pixel (clearFirst fb n) px py = if py.val * 64 + px.val < 8 * n then false else pixel fb px py := by
  unfold pixel
  rw [clearFirst_getElem, if_congr (byteIndex_lt_iff px py n) rfl rfl]
  split
  · exact BitVec.getLsbD_zero
  · rfl

/-- The frame of an instruction whose effect is `FB <- fb`. -/
theorem writesAtMost_fb (s : State) (fb : Framebuffer) :
    WritesAtMost { framebuffer := true } s { s.advance with fb := fb }.latchKeys := by
  constructor
  case regs => exact fun r _ => State.getV_congr rfl r
  all_goals simp

/-- An instruction whose effect is `FB <- result FB` completes: PC is past the instruction's word, and nothing but the
framebuffer is written. -/
theorem runInstruction_fb (result : Framebuffer → Framebuffer) (s : State) :
    ∃ t, runInstruction (fun t => .ok { t with fb := result t.fb }) s = .next t ∧ t.fb = result s.fb ∧ t.pc = s.pc + 2 ∧
      WritesAtMost { framebuffer := true } s t :=
  ⟨_, runInstruction_pure (fun t => { t with fb := result t.fb }) s, rfl, rfl, writesAtMost_fb s _⟩

/-! ### The statements -/

/-- Settles O49: one word alone decodes to CLS, and its effect is the one write of the framebuffer, whose bytes are all 0x00. -/
theorem clearScreen : Obligations.ClearScreen := by
  refine ⟨decode_eq_cls_iff, fun s => ?_⟩
  obtain ⟨t, hrun, hfb, hpc, hframe⟩ := runInstruction_fb (fun _ => clearedFramebuffer) s
  refine ⟨t, hrun, fun k => ?_, hpc, hframe⟩
  rw [fbRead, hfb]
  exact Vector.getElem_replicate k.isLt

/-- Settles O50: the effect of CLRFB n is the one write of the framebuffer, read byte by byte (`clearFirst_getElem`) and pixel by
pixel (`pixel_clearFirst`). -/
theorem clearFirstBytes : Obligations.ClearFirstBytes := by
  intro n
  refine ⟨?decodes, fun s => ?runs⟩
  case decodes =>
    apply decode_of_toNat_clrfbN
    rw [toNat_append_eq_add, BitVec.toNat_ofNat, BitVec.toNat_ofNat]
    omega
  case runs =>
    obtain ⟨t, hrun, hfb, hpc, hframe⟩ := runInstruction_fb (fun fb => clearFirst fb n.val) s
    refine ⟨t, hrun, fun k => ?bytes, fun px py => ?pixels, hpc, hframe⟩
    case bytes => rw [fbRead, hfb]; exact clearFirst_getElem s.fb n.val k.val k.isLt
    case pixels => rw [hfb]; exact pixel_clearFirst s.fb n.val px py

end Sys2Proof.Machine
end

section
/-! The host's halt and key operations (60_exceptions.md R270 to R275): the field each writes. -/

namespace Sys2Proof.Machine

/-- The key bits after `key_up`: the mask clears the bits it names (60_exceptions.md R275). -/
theorem getLsbD_and_not (keys mask : Word) (k : Nat) :
    (keys &&& ~~~mask).getLsbD k = (keys.getLsbD k && !mask.getLsbD k) := by
  rw [BitVec.getLsbD_and, BitVec.getLsbD_not]
  by_cases hk : k < 16
  · simp [hk]
  · simp [hk, BitVec.getLsbD_of_ge keys k (Nat.le_of_not_lt hk)]

/-- Settles O55: each operation is one record update, and the two mask updates are read bit by bit. -/
theorem haltAndKeyOperations : Obligations.HaltAndKeyOperations := by
  intro s mask
  refine ⟨?halt, ?haltTwice, ?setKeyMask, ⟨keyDown mask s, rfl, rfl, fun k => ?keyDown⟩,
    ⟨keyUp mask s, rfl, rfl, fun k => ?keyUp⟩⟩
  case halt => rfl
  case haltTwice => rfl
  case setKeyMask => rfl
  case keyDown => exact BitVec.getLsbD_or
  case keyUp => exact getLsbD_and_not s.keysCur mask k

end Sys2Proof.Machine
end

section
/-! The timer countdown (60_exceptions.md R265): the tick's decrement is the only change of DT and ST but for Fx15 and Fx18,
which load them after it (44_timers.md R202, R203). -/

namespace Sys2Proof.Machine

/-! ### The instruction a tick runs -/

/-- The word a tick fetches: the timer decrement changes neither PC nor memory (40_execution_cycle.md R102). -/
theorem fetch_decrementTimers {s : State} (hfetch : fetchable s) : fetch s.decrementTimers = .ok (wordAtPc s) :=
  fetch_ok (s := s.decrementTimers) hfetch

theorem fetch_decrementTimers_eq_ok {s : State} {op : Word} (h : fetch s.decrementTimers = .ok op) :
    fetchable s ∧ op = wordAtPc s := by
  by_cases hfetch : fetchable s
  · rw [fetch_decrementTimers hfetch] at h
    exact ⟨hfetch, (Except.ok.inj h).symm⟩
  · rw [fetch_error (s := s.decrementTimers) (Nat.le_of_not_lt hfetch)] at h
    cases h

/-- A tick of a running block at a word that decodes runs its instruction, after the timer decrement (40_execution_cycle.md R100,
R105). -/
theorem step_eq_exec {s : State} {i : Instr} (hrun : running s) (hfetch : fetchable s) (hdecode : decode (wordAtPc s) = .ok i) :
    step s = exec i s.decrementTimers := by
  have hword := fetch_decrementTimers hfetch
  obtain ⟨f, hf, -⟩ | ⟨op, j, hf, hj, hstep⟩ | ⟨op, r, hf, hr, -⟩ := step_cases hrun.1 hrun.2
  all_goals
    rw [hword] at hf
    cases hf
  case inr.inl =>
    rw [hdecode] at hj
    cases hj
    exact hstep
  case inr.inr =>
    rw [hdecode] at hr
    cases hr

/-! ### Both timers together -/

/-- DT and ST, so that one statement says what becomes of both. -/
def State.timers (s : State) : Byte × Byte := (s.dt, s.st)

theorem State.timers_skipIf (s : State) (c : Bool) : (s.skipIf c).timers = s.timers := by
  simp [State.timers]

theorem State.timers_enterFault (s : State) (f : Raised) : (s.enterFault f).timers = s.timers := by
  simp [State.timers]

theorem popReturn_timers {s t : State} {target : Word} (h : popReturn s = .ok (target, t)) : t.timers = s.timers := by
  by_cases hsp : s.sp = 0
  · rw [popReturn_empty hsp] at h; cases h
  · rw [popReturn_ok (Fin.val_ne_zero_iff.mpr hsp)] at h; cases h; rfl

theorem pushReturn_timers {s t : State} {a target : Word} (h : pushReturn s a target = .ok t) : t.timers = s.timers := by
  by_cases hsp : s.sp.val < 16
  · rw [pushReturn_ok hsp] at h; cases h; rfl
  · rw [pushReturn_full (by omega)] at h; cases h

theorem storeAtIndex_timers {s t : State} {bytes : List Byte} (h : storeAtIndex s bytes = .ok t) : t.timers = s.timers := by
  obtain ⟨m, -, rfl⟩ := storeAtIndex_cases h
  rfl

/-- An instruction whose effect keeps the timers keeps them, a fault of the effect included. -/
theorem runInstruction_timers {effect : State → Except Raised State} {s t : State} (h : runInstruction effect s = .next t)
    (hkeeps : ∀ u, effect s.advance = .ok u → u.timers = s.advance.timers) : t.timers = s.timers := by
  obtain ⟨u, hu, rfl⟩ | ⟨f, -, rfl⟩ := runInstruction_cases h
  · exact hkeeps u hu
  · exact s.timers_enterFault f

/-- A sequence of two operations that ends well is two operations that end well. -/
theorem exists_of_bind_eq_ok {α β : Type} {x : Except Raised α} {k : α → Except Raised β} {b : β} (h : x >>= k = .ok b) :
    ∃ a, x = .ok a ∧ k a = .ok b := by
  cases x with
  | error f => cases h
  | ok a => exact ⟨a, rfl, h⟩

/-- An UNKNOWN word keeps the timers as the tick's decrement left them (40_execution_cycle.md R108). -/
theorem execUnknown_timers {op : Word} {s t : State} (h : execUnknown op s = .next t) : t.timers = s.timers := by
  cases h
  rfl

/-! ### What an instruction and a tick can do to the timers -/

/-- All an instruction can do to the timers: keep both, or be an Fx15 or an Fx18 and load its own. -/
theorem exec_timers_cases {i : Instr} {s t : State} (h : exec i s = .next t) :
    t.timers = s.timers ∨ (∃ x, i = .ldDtVx x ∧ t.timers = (s.getV x, s.st)) ∨
      ∃ x, i = .ldStVx x ∧ t.timers = (s.dt, s.getV x) := by
  cases i
  case ldDtVx x =>
    rw [exec_ldDtVx, execLdDtVx_eq] at h
    cases h
    exact .inr (.inl ⟨x, rfl, rfl⟩)
  case ldStVx x =>
    rw [exec_ldStVx, execLdStVx_eq] at h
    cases h
    exact .inr (.inr ⟨x, rfl, rfl⟩)
  all_goals
    dsimp only [exec] at h
    refine .inl (runInstruction_timers h fun u hu => ?_)
  case ret =>
    obtain ⟨⟨target, v⟩, hpop, ⟨⟩⟩ := exists_of_bind_eq_ok hu
    exact (popReturn_timers hpop :)
  case call =>
    obtain ⟨v, hpush, ⟨⟩⟩ := exists_of_bind_eq_ok hu
    exact (pushReturn_timers hpush :)
  case drwVxVyN | ldVxMem =>
    obtain ⟨bytes, -, ⟨⟩⟩ := exists_of_bind_eq_ok hu
    rfl
  case skpVx | sknpVx =>
    obtain ⟨k, -, ⟨⟩⟩ := exists_of_bind_eq_ok hu
    exact State.timers_skipIf _ _
  case seVxNn | sneVxNn | seVxVy | sneVxVy =>
    cases hu
    exact State.timers_skipIf _ _
  case ldBVx | ldMemVx => exact storeAtIndex_timers hu
  case ldVxK =>
    cases hu
    split <;> rfl
  all_goals
    cases hu
    rfl

/-- All a tick of a running block can do to the timers: count both down, or count one down while an Fx15 or an Fx18 at PC loads
the other. -/
theorem step_timers_cases {s t : State} (hrun : running s) (h : step s = .next t) :
    t.timers = (countDown s.dt, countDown s.st) ∨
      (fetchable s ∧ ∃ x, decode (wordAtPc s) = .ok (.ldDtVx x) ∧ t.timers = (s.getV x, countDown s.st)) ∨
      (fetchable s ∧ ∃ x, decode (wordAtPc s) = .ok (.ldStVx x) ∧ t.timers = (countDown s.dt, s.getV x)) := by
  obtain ⟨f, -, hstep⟩ | ⟨op, i, hword, hdecode, hstep⟩ | ⟨op, r, -, -, hstep⟩ := step_cases hrun.1 hrun.2
  all_goals rw [hstep] at h
  case inl =>
    cases h
    exact .inl (State.timers_enterFault _ f)
  case inr.inr => exact .inl (execUnknown_timers h)
  case inr.inl =>
    obtain ⟨hfetch, rfl⟩ := fetch_decrementTimers_eq_ok hword
    obtain hkept | ⟨x, rfl, hload⟩ | ⟨x, rfl, hload⟩ := exec_timers_cases h
    · exact .inl hkept
    · exact .inr (.inl ⟨hfetch, x, hdecode, hload⟩)
    · exact .inr (.inr ⟨hfetch, x, hdecode, hload⟩)

/-- DT loses exactly one in every tick but one that runs an Fx15. -/
theorem step_dt {s t : State} (hrun : running s) (h : step s = .next t)
    (hno : ¬(fetchable s ∧ ∃ x, decode (wordAtPc s) = .ok (.ldDtVx x))) : t.dt = countDown s.dt := by
  obtain hcount | ⟨hfetch, x, hload, -⟩ | ⟨-, x, -, hcount⟩ := step_timers_cases hrun h
  · exact congrArg Prod.fst hcount
  · exact absurd ⟨hfetch, x, hload⟩ hno
  · exact congrArg Prod.fst hcount

/-- ST loses exactly one in every tick but one that runs an Fx18. -/
theorem step_st {s t : State} (hrun : running s) (h : step s = .next t)
    (hno : ¬(fetchable s ∧ ∃ x, decode (wordAtPc s) = .ok (.ldStVx x))) : t.st = countDown s.st := by
  obtain hcount | ⟨-, x, -, hcount⟩ | ⟨hfetch, x, hload, -⟩ := step_timers_cases hrun h
  · exact congrArg Prod.snd hcount
  · exact congrArg Prod.snd hcount
  · exact absurd ⟨hfetch, x, hload⟩ hno

/-! ### The statement -/

/-- Settles O10: the counted-down values are `step_dt` and `step_st`; an Fx07, Fx15 or Fx18 runs in the state already counted
down (`step_eq_exec`). -/
theorem timersLoseOnePerTick : Obligations.TimersLoseOnePerTick := by
  intro s t hrun hstep
  have runs {i : Instr} (hfetch : fetchable s) (hdecode : decode (wordAtPc s) = .ok i) : exec i s.decrementTimers = .next t :=
    (step_eq_exec hrun hfetch hdecode).symm.trans hstep
  refine ⟨fun hno => ?dt, fun hno => ?st, fun x hfetch hdecode => ?loadDt, fun x hfetch hdecode => ?loadSt,
    fun x hfetch hdecode => ?readDt⟩
  case dt => rw [step_dt hrun hstep hno, countDown_toNat]
  case st => rw [step_st hrun hstep hno, countDown_toNat]
  case loadDt =>
    cases (execLdDtVx_eq x _).symm.trans (runs hfetch hdecode)
    exact s.getV_decrementTimers x
  case loadSt =>
    cases (execLdStVx_eq x _).symm.trans (runs hfetch hdecode)
    exact s.getV_decrementTimers x
  case readDt =>
    cases runs hfetch hdecode
    rw [State.getV_latchKeys, State.getV_setV, if_pos rfl]
    exact countDown_toNat s.dt

end Sys2Proof.Machine
end

section
/-! The host's load_program (70_reset_and_hazards.md R293, R294): what an accepted one leaves in memory. -/

namespace Sys2Proof.Machine

/-- A program of 1 to 3584 bytes is copied into the reset state (70_reset_and_hazards.md R293). -/
theorem perform_loadProgram_accepted {bytes : List Byte} (hpos : 1 ≤ bytes.length)
    (hmax : bytes.length ≤ Config.maxProgram) (s : State) :
    perform (.loadProgram bytes) s = .next { resetOp s with mem := copyBytes [] Config.loadAddress bytes } :=
  congrArg Host.Outcome.next (if_neg (by omega))

/-- The memory of an accepted load: the program from the load address on, and 0x00 in every other cell. -/
theorem read_copyBytes_loadAddress {bytes : List Byte} (hmax : bytes.length ≤ Config.maxProgram) (c : Nat) :
    Memory.read (copyBytes [] Config.loadAddress bytes) c =
      if hc : Config.loadAddress ≤ c ∧ c < Config.loadAddress + bytes.length then bytes[c - Config.loadAddress]'(by omega)
      else 0x00#8 :=
  (copyBytes_spec rfl Config.loadAddress bytes (Nat.add_le_add_left hmax Config.loadAddress)).2 c

/-- Settles O57: the load is the reset with one write of memory, and the cells are read through `read_copyBytes_loadAddress`. -/
theorem loadPlacesProgram : Obligations.LoadPlacesProgram := by
  intro bytes s r hpos hmax hreset
  cases hreset
  refine ⟨_, perform_loadProgram_accepted hpos hmax s, fun j hj => ?program, fun a ha => ?otherCells, rfl⟩
  case program =>
    rw [read_copyBytes_loadAddress hmax, dif_pos ⟨Nat.le_add_right .., Nat.add_lt_add_left hj _⟩]
    exact getElem_congr_idx (Nat.add_sub_cancel_left ..)
  case otherCells =>
    rw [read_copyBytes_loadAddress hmax, dif_neg]
    rintro ⟨hle, hlt⟩
    exact ha.elim hle.not_gt hlt.not_ge

end Sys2Proof.Machine
end

section
/-! The encoding as a whole (30_encoding.md R71 to R75): the decoder undoes the encoder on the well-formed instructions, the
encoder undoes the decoder on the words that decode, and the words that do not. -/

namespace Sys2Proof.Machine

/-! ### The decoder after the encoder -/

/-- A word of family 0xE is decoded by its low byte, whatever x is (30_encoding.md R73). -/
theorem decode_wordXNN_E (x : Reg) (nn : Byte) : decode (wordXNN 0xE x nn) = decodeFamilyE (wordXNN 0xE x nn) :=
  decode_familyE (fieldH_wordXNN (by decide) x nn)

theorem encode_clrfbN_toNat (n : Count) : (encode (.clrfbN n)).toNat = 0xC0 + n.val := wordXYN_toNat (by decide) 0x0 0xC n

theorem decode_encode_clrfbN (n : Count) : decode (encode (.clrfbN n)) = .ok (.clrfbN n) :=
  decode_of_toNat_clrfbN (encode_clrfbN_toNat n)

/-- The operands SYS has: neither CLS, nor RET, nor CLRFB (30_encoding.md R73). -/
theorem sysOperandFree_iff (nnn : Addr12) :
    sysOperandFree nnn = true ↔ nnn.toNat ≠ 0x0E0 ∧ nnn.toNat ≠ 0x0EE ∧ nnn.toNat / 0x10 ≠ 0x00C := by
  have hupper : (nnn.extractLsb' 4 8).toNat = nnn.toNat / 0x10 := by
    rw [BitVec.extractLsb'_toNat, Nat.shiftRight_eq_div_pow]
    exact Nat.mod_eq_of_lt (by omega)
  simp [sysOperandFree, ← BitVec.toNat_inj, hupper, and_assoc]

theorem decode_encode_sysNnn {nnn : Addr12} (hfree : sysOperandFree nnn = true) :
    decode (encode (.sysNnn nnn)) = .ok (.sysNnn nnn) := by
  obtain ⟨hcls, hret, hclrfb⟩ := (sysOperandFree_iff nnn).mp hfree
  have hvalue : (wordNNN 0x0 nnn).toNat = nnn.toNat := (wordNNN_toNat (by decide) nnn).trans (by omega)
  rw [encode, decode_family0 (fieldH_wordNNN (by decide) nnn)]
  obtain ⟨hop, -⟩ | ⟨hop, -⟩ | ⟨hop, -⟩ | ⟨-, -, -, hdecode⟩ := decodeFamily0_cases (wordNNN 0x0 nnn)
  · exact absurd (hvalue.symm.trans (congrArg BitVec.toNat hop)) hcls
  · exact absurd (hvalue.symm.trans (congrArg BitVec.toNat hop)) hret
  · exact absurd (hvalue ▸ hop) hclrfb
  · rw [hdecode, fieldNNN_wordNNN (by decide)]

/-- The decoder gives back every well-formed instruction. -/
theorem decode_encode {i : Instr} (hwf : i.wellFormed = true) : decode (encode i) = .ok i := by
  cases i
  case cls | ret => decide
  case sysNnn => exact decode_encode_sysNnn hwf
  case clrfbN n => exact decode_encode_clrfbN n
  case jp nnn => rw [encode, decode_family1 (fieldH_wordNNN (by decide) nnn), fieldNNN_wordNNN (by decide)]
  case call nnn => rw [encode, decode_family2 (fieldH_wordNNN (by decide) nnn), fieldNNN_wordNNN (by decide)]
  case ldINnn nnn => exact decode_encode_ldINnn nnn
  case jpV0Nnn nnn => rw [encode, decode_familyB (fieldH_wordNNN (by decide) nnn), fieldNNN_wordNNN (by decide)]
  case seVxNn x nn =>
    rw [encode, decode_family3 (fieldH_wordXNN (by decide) x nn), fieldX_wordXNN (by decide), fieldNN_wordXNN (by decide)]
  case sneVxNn x nn =>
    rw [encode, decode_family4 (fieldH_wordXNN (by decide) x nn), fieldX_wordXNN (by decide), fieldNN_wordXNN (by decide)]
  case ldVxNn x nn => exact decode_encode_ldVxNn x nn
  case addVxNn x nn => exact decode_encode_addVxNn x nn
  case rndVxNn x nn =>
    rw [encode, decode_familyC (fieldH_wordXNN (by decide) x nn), fieldX_wordXNN (by decide), fieldNN_wordXNN (by decide)]
  case seVxVy x y =>
    rw [encode, decode_family5 (fieldH_wordXYN (by decide) x y 0x0)]
    simp [decodeFamily5, fieldX_wordXYN, fieldY_wordXYN, fieldN_wordXYN]
  case sneVxVy x y =>
    rw [encode, decode_family9 (fieldH_wordXYN (by decide) x y 0x0)]
    simp [decodeFamily9, fieldX_wordXYN, fieldY_wordXYN, fieldN_wordXYN]
  case drwVxVyN x y n =>
    rw [encode, decode_familyD (fieldH_wordXYN (by decide) x y n), fieldX_wordXYN (by decide), fieldY_wordXYN (by decide),
      fieldN_wordXYN (by decide)]
  case skpVx | sknpVx => simp [encode, decode_wordXNN_E, decodeFamilyE, fieldX_wordXNN, fieldNN_wordXNN]
  case ldVxVy | orVxVy | andVxVy | xorVxVy | addVxVy | subVxVy | shrVxVy | subnVxVy | shlVxVy =>
    simp [encode, decode_wordXYN_8, decodeFamily8, fieldX_wordXYN, fieldY_wordXYN, fieldN_wordXYN]
  case ldVxDt | ldVxK | ldDtVx | ldStVx | addIVx | ldFVx | ldBVx | ldMemVx | ldVxMem =>
    simp [encode, decode_wordXNN_F, decodeFamilyF, fieldX_wordXNN, fieldNN_wordXNN]

/-! ### The encoder after the decoder -/

theorem toNat_div_of_fieldH {op : Word} {h : Nat} {hlt : h < 16} (hh : fieldH op = ⟨h, hlt⟩) : op.toNat / 0x1000 = h :=
  (fieldH_val op).symm.trans (congrArg Fin.val hh)

/-- A word is its fields h, x, y and n (30_encoding.md R71). -/
theorem wordXYN_fields {op : Word} {h : Nat} {hlt : h < 16} {n : Fin 16} (hh : fieldH op = ⟨h, hlt⟩) (hn : fieldN op = n) :
    wordXYN h (fieldX op) (fieldY op) n = op := by
  have hval := toNat_div_of_fieldH hh
  subst hn
  apply BitVec.eq_of_toNat_eq
  rw [wordXYN_toNat hlt, fieldX_val, fieldY_val, fieldN_val]
  omega

/-- A word is its fields h, x and nn. -/
theorem wordXNN_fields {op : Word} {h : Nat} {hlt : h < 16} {nn : Byte} (hh : fieldH op = ⟨h, hlt⟩) (hnn : fieldNN op = nn) :
    wordXNN h (fieldX op) nn = op := by
  have hval := toNat_div_of_fieldH hh
  subst hnn
  apply BitVec.eq_of_toNat_eq
  rw [wordXNN_toNat hlt, fieldX_val, fieldNN_toNat]
  omega

/-- A word is its fields h and nnn. -/
theorem wordNNN_fields {op : Word} {h : Nat} {hlt : h < 16} (hh : fieldH op = ⟨h, hlt⟩) : wordNNN h (fieldNNN op) = op := by
  have hval := toNat_div_of_fieldH hh
  apply BitVec.eq_of_toNat_eq
  rw [wordNNN_toNat hlt, fieldNNN_toNat]
  omega

/-- An answer of the decoder to a word that, if it is an instruction, is a well-formed one that encodes to the word. -/
def EncodesBack (op : Word) (r : Except DecodeReject Instr) : Prop :=
  ∀ i, r = .ok i → i.wellFormed = true ∧ encode i = op

theorem encodesBack_ok {op : Word} {i : Instr} (hwf : i.wellFormed = true) (hop : encode i = op) : EncodesBack op (.ok i) := by
  rintro j ⟨⟩
  exact ⟨hwf, hop⟩

theorem encodesBack_error (op : Word) (r : DecodeReject) : EncodesBack op (.error r) := by rintro j ⟨⟩

/-- One branch of the decoder. -/
theorem encodesBack_ite {c : Prop} [Decidable c] {op : Word} {i : Instr} {r : Except DecodeReject Instr}
    (hi : c → i.wellFormed = true ∧ encode i = op) (hr : EncodesBack op r) :
    EncodesBack op (if c then .ok i else r) := by
  split
  · exact encodesBack_ok (hi ‹c›).1 (hi ‹c›).2
  · exact hr

theorem encodesBack_family0 {op : Word} (hh : fieldH op = 0x0) : EncodesBack op (decodeFamily0 op) := by
  have hval := toNat_div_of_fieldH (h := 0x0) hh
  obtain ⟨rfl, hd⟩ | ⟨rfl, hd⟩ | ⟨hop, hd⟩ | ⟨hcls, hret, hclrfb, hd⟩ := decodeFamily0_cases op
  all_goals rw [hd]
  · exact encodesBack_ok rfl rfl
  · exact encodesBack_ok rfl rfl
  · refine encodesBack_ok rfl (BitVec.eq_of_toNat_eq ?_)
    rw [encode_clrfbN_toNat, fieldN_val]
    omega
  · refine encodesBack_ok ((sysOperandFree_iff _).mpr ?_) (wordNNN_fields hh)
    rw [fieldNNN_toNat]
    omega

theorem encodesBack_family8 {op : Word} (hh : fieldH op = 0x8) : EncodesBack op (decodeFamily8 op) := by
  unfold decodeFamily8
  repeat refine encodesBack_ite (fun hn => ⟨rfl, wordXYN_fields hh hn⟩) ?_
  exact encodesBack_error op _

theorem encodesBack_familyE {op : Word} (hh : fieldH op = 0xE) : EncodesBack op (decodeFamilyE op) := by
  unfold decodeFamilyE
  repeat refine encodesBack_ite (fun hnn => ⟨rfl, wordXNN_fields hh hnn⟩) ?_
  exact encodesBack_error op _

theorem encodesBack_familyF {op : Word} (hh : fieldH op = 0xF) : EncodesBack op (decodeFamilyF op) := by
  unfold decodeFamilyF
  repeat refine encodesBack_ite (fun hnn => ⟨rfl, wordXNN_fields hh hnn⟩) ?_
  exact encodesBack_error op _

/-- Every word the decoder reads is the encoding of what it reads, family by family (30_encoding.md R73). -/
theorem encodesBack_decode (op : Word) : EncodesBack op (decode op) := by
  obtain hh | hh | hh | hh | hh | hh | hh | hh | hh | hh | hh | hh | hh | hh | hh | hh := fieldH_cases op
  · rw [decode_family0 hh]; exact encodesBack_family0 hh
  · rw [decode_family1 hh]; exact encodesBack_ok rfl (wordNNN_fields hh)
  · rw [decode_family2 hh]; exact encodesBack_ok rfl (wordNNN_fields hh)
  · rw [decode_family3 hh]; exact encodesBack_ok rfl (wordXNN_fields hh rfl)
  · rw [decode_family4 hh]; exact encodesBack_ok rfl (wordXNN_fields hh rfl)
  · rw [decode_family5 hh]
    exact encodesBack_ite (fun hn => ⟨rfl, wordXYN_fields hh hn⟩) (encodesBack_error op _)
  · rw [decode_family6 hh]; exact encodesBack_ok rfl (wordXNN_fields hh rfl)
  · rw [decode_family7 hh]; exact encodesBack_ok rfl (wordXNN_fields hh rfl)
  · rw [decode_family8 hh]; exact encodesBack_family8 hh
  · rw [decode_family9 hh]
    exact encodesBack_ite (fun hn => ⟨rfl, wordXYN_fields hh hn⟩) (encodesBack_error op _)
  · rw [decode_familyA hh]; exact encodesBack_ok rfl (wordNNN_fields hh)
  · rw [decode_familyB hh]; exact encodesBack_ok rfl (wordNNN_fields hh)
  · rw [decode_familyC hh]; exact encodesBack_ok rfl (wordXNN_fields hh rfl)
  · rw [decode_familyD hh]; exact encodesBack_ok rfl (wordXYN_fields hh rfl)
  · rw [decode_familyE hh]; exact encodesBack_familyE hh
  · rw [decode_familyF hh]; exact encodesBack_familyF hh

/-! ### The opcode map, digit by digit -/

theorem decode_fieldsXYN {h n : Nat} (hh : h < 16) (hn : n < 16) {x y : Reg} {i : Instr} (hwf : i.wellFormed = true)
    (hi : encode i = wordXYN h x y ⟨n, hn⟩) :
    decode (BitVec.ofNat 4 h ++ BitVec.ofNat 4 x.val ++ BitVec.ofNat 4 y.val ++ BitVec.ofNat 4 n) = .ok i := by
  rw [fields_eq_wordXYN hh hn, ← hi, decode_encode hwf]

theorem decode_fieldsXNN {h : Nat} (hh : h < 16) {x : Reg} {nn : Byte} {i : Instr} (hwf : i.wellFormed = true)
    (hi : encode i = wordXNN h x nn) : decode (BitVec.ofNat 4 h ++ BitVec.ofNat 4 x.val ++ nn) = .ok i := by
  rw [fields_eq_wordXNN hh, ← hi, decode_encode hwf]

theorem decode_fieldsNNN {h : Nat} (hh : h < 16) {nnn : Addr12} {i : Instr} (hwf : i.wellFormed = true)
    (hi : encode i = wordNNN h nnn) : decode (BitVec.ofNat 4 h ++ nnn) = .ok i := by
  rw [fields_eq_wordNNN hh, ← hi, decode_encode hwf]

/-! ### The words the decoder rejects -/

/-- A branch of the decoder that reads an instruction rejects nothing. -/
theorem ite_ok_eq_error_iff {c : Prop} [Decidable c] {i : Instr} {q : Except DecodeReject Instr} {r : DecodeReject} :
    (if c then .ok i else q) = .error r ↔ q = .error r ∧ ¬c := by
  split
  · exact ⟨nofun, fun h => absurd ‹c› h.2⟩
  · exact ⟨fun h => ⟨h, ‹¬c›⟩, And.left⟩

/-- The last branch of a family rejects the word by its name. -/
theorem error_unknown_iff {op : Word} {r : DecodeReject} :
    (.error (.unknownOpcode op) : Except DecodeReject Instr) = .error r ↔ r = .unknownOpcode op :=
  ⟨fun h => (Except.error.inj h).symm, fun h => h ▸ rfl⟩

theorem fieldN_eq_iff (op : Word) (n : Fin 16) : fieldN op = n ↔ op.toNat % 16 = n.val := by
  rw [Fin.ext_iff, fieldN_val]

theorem fieldNN_eq_iff (op : Word) (nn : Byte) : fieldNN op = nn ↔ op.toNat % 256 = nn.toNat := by
  rw [← BitVec.toNat_inj, fieldNN_toNat]

theorem decodeFamily0_ne_error (op : Word) (r : DecodeReject) : decodeFamily0 op ≠ .error r := by
  obtain ⟨-, hd⟩ | ⟨-, hd⟩ | ⟨-, hd⟩ | ⟨-, -, -, hd⟩ := decodeFamily0_cases op <;> simp [hd]

theorem decodeFamily5_eq_error_iff (op : Word) (r : DecodeReject) :
    decodeFamily5 op = .error r ↔ r = .unknownOpcode op ∧ op.toNat % 16 ≠ 0x0 := by
  simp only [decodeFamily5, ite_ok_eq_error_iff, error_unknown_iff, fieldN_eq_iff, Fin.val_zero]

theorem decodeFamily9_eq_error_iff (op : Word) (r : DecodeReject) :
    decodeFamily9 op = .error r ↔ r = .unknownOpcode op ∧ op.toNat % 16 ≠ 0x0 := by
  simp only [decodeFamily9, ite_ok_eq_error_iff, error_unknown_iff, fieldN_eq_iff, Fin.val_zero]

theorem decodeFamily8_eq_error_iff (op : Word) (r : DecodeReject) :
    decodeFamily8 op = .error r ↔ r = .unknownOpcode op ∧ 0x8 ≤ op.toNat % 16 ∧ op.toNat % 16 ≠ 0xE := by
  simp only [decodeFamily8, ite_ok_eq_error_iff, error_unknown_iff, fieldN_eq_iff, and_assoc]
  exact and_congr_right fun _ => by omega

theorem decodeFamilyE_eq_error_iff (op : Word) (r : DecodeReject) :
    decodeFamilyE op = .error r ↔ r = .unknownOpcode op ∧ op.toNat % 256 ∉ [0x9E, 0xA1] := by
  simp only [decodeFamilyE, ite_ok_eq_error_iff, error_unknown_iff, fieldNN_eq_iff, and_assoc]
  exact and_congr_right fun _ => by simp [and_comm]

theorem decodeFamilyF_eq_error_iff (op : Word) (r : DecodeReject) :
    decodeFamilyF op = .error r ↔
      r = .unknownOpcode op ∧ op.toNat % 256 ∉ [0x07, 0x0A, 0x15, 0x18, 0x1E, 0x29, 0x33, 0x55, 0x65] := by
  simp only [decodeFamilyF, ite_ok_eq_error_iff, error_unknown_iff, fieldNN_eq_iff, and_assoc]
  exact and_congr_right fun _ => by simp; omega

/-! ### The statements -/

/-- Settles O1: the decoder gives back the instruction's word (`decode_encode`), and two bytes in memory order are that word. -/
theorem decodeOfEncodeReturnsInstruction : Obligations.DecodeOfEncodeReturnsInstruction := by
  intro i rest hwf
  refine ⟨decode_encode hwf, ?_⟩
  change (decode (opcodeOfBytes (bytesOfWord (encode i)).1 (bytesOfWord (encode i)).2)).map (fun j => (j, rest)) = .ok (i, rest)
  rw [opcodeOfBytes_bytesOfWord, decode_encode hwf]
  rfl

/-- Settles O2: in every family the word is its fields side by side (`encodesBack_decode`). -/
theorem encodeOfDecodedWordReturnsWord : Obligations.EncodeOfDecodedWordReturnsWord := encodesBack_decode

/-- Settles O3: each row of the table is the word of the format with its fields, and that word decodes to its instruction
(`decode_encode`). -/
theorem opcodeMapRowsDecode : Obligations.OpcodeMapRowsDecode := by
  intro x y n nn nnn
  refine ⟨by decide, by decide, ?jp, ?call, ?seVxNn, ?sneVxNn, ?seVxVy, ?ldVxNn, ?addVxNn, ?ldVxVy, ?orVxVy, ?andVxVy,
    ?xorVxVy, ?addVxVy, ?subVxVy, ?shrVxVy, ?subnVxVy, ?shlVxVy, ?sneVxVy, ?ldINnn, ?jpV0Nnn, ?rndVxNn, ?drwVxVyN, ?skpVx,
    ?sknpVx, ?ldVxDt, ?ldVxK, ?ldDtVx, ?ldStVx, ?addIVx, ?ldFVx, ?ldBVx, ?ldMemVx, ?ldVxMem, ?clrfbN, fun hcls hret hclrfb => ?sys⟩
  case jp | call | ldINnn | jpV0Nnn => exact decode_fieldsNNN (by decide) rfl rfl
  case seVxNn | sneVxNn | ldVxNn | addVxNn | rndVxNn | skpVx | sknpVx | ldVxDt | ldVxK | ldDtVx | ldStVx | addIVx | ldFVx |
      ldBVx | ldMemVx | ldVxMem =>
    exact decode_fieldsXNN (by decide) rfl rfl
  case seVxVy | ldVxVy | orVxVy | andVxVy | xorVxVy | addVxVy | subVxVy | shrVxVy | subnVxVy | shlVxVy | sneVxVy =>
    exact decode_fieldsXYN (by decide) (by decide) rfl rfl
  case drwVxVyN => exact decode_fieldsXYN (by decide) n.isLt rfl rfl
  case clrfbN => exact (clearFirstBytes n).1
  case sys =>
    refine decode_fieldsNNN (by decide) ((sysOperandFree_iff nnn).mpr ⟨?_, ?_, hclrfb⟩) rfl
    · exact fun h => hcls (BitVec.eq_of_toNat_eq h)
    · exact fun h => hret (BitVec.eq_of_toNat_eq h)

/-- Settles O4: the last branch of families 0x5, 0x8, 0x9, 0xE and 0xF rejects, each under its own condition, and the other
families reject nothing. -/
theorem unknownWordsAreTheElseLines : Obligations.UnknownWordsAreTheElseLines := by
  intro op r
  obtain hh | hh | hh | hh | hh | hh | hh | hh | hh | hh | hh | hh | hh | hh | hh | hh := fieldH_cases op
  all_goals
    simp [decode, hh, toNat_div_of_fieldH hh, decodeFamily0_ne_error, decodeFamily5_eq_error_iff, decodeFamily8_eq_error_iff,
      decodeFamily9_eq_error_iff, decodeFamilyE_eq_error_iff, decodeFamilyF_eq_error_iff]

/-- Settles O5: the twelve words are read by the decoder itself. -/
theorem sampleWordsDecode : Obligations.SampleWordsDecode := by
  unfold Obligations.SampleWordsDecode
  decide

end Sys2Proof.Machine
end

section
/-! What an instruction may write, as a function of the instruction, and the fault table of 60_exceptions.md R250 held against
`exec`: every instruction either raises the table's fault and takes it, or completes and writes at most what `mayWrite` lists. -/

namespace Sys2Proof.Machine

/-! ### A store, with no hypothesis on the form of the memory -/

/-- A write changes no other cell. -/
theorem Memory.read_write_of_ne {a c : Nat} (hne : c ≠ a) (m : Memory) (b : Byte) :
    Memory.read (Memory.write m a b) c = Memory.read m c := by
  induction m with
  | nil =>
    unfold Memory.write
    split
    · rfl
    · rw [Memory.read_cons, if_neg hne.symm]
  | cons d m ih =>
    obtain ⟨a', b'⟩ := d
    unfold Memory.write
    split
    · split
      · rfl
      · rw [Memory.read_cons, if_neg hne.symm]
    · split
      · subst a
        split
        · rw [Memory.read_cons, if_neg hne.symm]
        · rw [Memory.read_cons, Memory.read_cons, if_neg hne.symm, if_neg hne.symm]
      · rw [Memory.read_cons, Memory.read_cons, ih]

/-- Writes within the memory succeed and change no cell outside the block written. -/
theorem writeBytes_frame (m : Memory) (a : Nat) (bs : List Byte) (h : a + bs.length ≤ Config.memSize) :
    ∃ m', writeBytes m a bs = .ok m' ∧
      ∀ c, ¬(a ≤ c ∧ c < a + bs.length) → Memory.read m' c = Memory.read m c := by
  induction bs generalizing m a with
  | nil => exact ⟨m, rfl, fun _ _ => rfl⟩
  | cons b bs ih =>
    rw [List.length_cons] at h
    obtain ⟨m', hm, hread⟩ := ih (Memory.write m a b) (a + 1) (by omega)
    refine ⟨m', ?_, fun c hc => ?_⟩
    · unfold writeBytes
      rw [memWrite_of_lt (by omega)]
      exact hm
    · rw [List.length_cons] at hc
      rw [hread c (by omega), Memory.read_write_of_ne (by omega)]

/-- The fault of an access at I that runs past the memory (60_exceptions.md R255). -/
theorem boundsFault_eq_pastMemory (s : State) : boundsFault (max s.idx.toNat Config.memSize) = pastMemory s := by
  unfold boundsFault pastMemory
  split
  · rw [Nat.max_eq_left ‹_›, BitVec.ofNat_toNat, BitVec.setWidth_eq]
  · rw [Nat.max_eq_right (by omega)]

/-! ### What an instruction may write -/

/-- What each instruction may write, its own effect alone (40_execution_cycle.md R105). -/
def mayWrite (i : Instr) (s : State) : Writes :=
  match i with
  | .jp _ | .seVxNn _ _ | .sneVxNn _ _ | .seVxVy _ _ | .sneVxVy _ _ | .jpV0Nnn _ | .skpVx _ | .sknpVx _ | .sysNnn _ => {}
  | .ret | .call _ => { callStack := true }
  | .ldVxNn x _ | .addVxNn x _ | .ldVxVy x _ | .orVxVy x _ | .andVxVy x _ | .xorVxVy x _ | .ldVxDt x | .ldVxK x =>
    { regs := [x] }
  | .addVxVy x _ | .subVxVy x _ | .shrVxVy x _ | .subnVxVy x _ | .shlVxVy x _ => { regs := [x, vF] }
  | .rndVxNn x _ => { regs := [x], draw := true }
  | .ldVxMem x => { regs := (List.finRange 16).filter (· ≤ x) }
  | .ldINnn _ | .addIVx _ | .ldFVx _ => { index := true }
  | .ldDtVx _ => { delayTimer := true }
  | .ldStVx _ => { soundTimer := true }
  | .cls | .clrfbN _ => { framebuffer := true }
  | .drwVxVyN _ _ _ => { regs := [vF], framebuffer := true }
  | .ldBVx _ => { memory := [dataAddress s 0, dataAddress s 1, dataAddress s 2] }
  | .ldMemVx x => { memory := (List.range (x.val + 1)).map (dataAddress s) }

/-! ### The frames of the effects -/

/-- The frame of an effect that sets PC alone. -/
theorem writesAtMost_pc (s : State) (pc : Word) : WritesAtMost {} s { s with pc := pc, keysPrev := s.keysCur } := by
  constructor
  case regs => exact fun r _ => State.getV_congr rfl r
  all_goals simp

/-- The frame of a skip. -/
theorem writesAtMost_skipIf (s : State) (c : Bool) : WritesAtMost {} s (s.advance.skipIf c).latchKeys := by
  cases c <;> exact writesAtMost_pc s _

/-- The frame of an instruction that writes Vx and VF, the flag last. -/
theorem writesAtMost_setThenFlag (s : State) (x : Reg) (b f : Byte) :
    WritesAtMost { regs := [x, vF] } s (s.advance.setThenFlag x b f).latchKeys := by
  constructor
  case regs =>
    intro r hr
    obtain ⟨hx, hF⟩ : r ≠ x ∧ r ≠ vF := by simpa using hr
    rw [State.getV_latchKeys, State.getV_setThenFlag, if_neg hF, if_neg hx, State.getV_advance]
  all_goals simp

/-- The frame of an instruction that writes VF and Vx, the flag first. -/
theorem writesAtMost_flagThenSet (s : State) (x : Reg) (b f : Byte) :
    WritesAtMost { regs := [x, vF] } s ((s.advance.setV vF f).setV x b).latchKeys := by
  constructor
  case regs =>
    intro r hr
    obtain ⟨hx, hF⟩ : r ≠ x ∧ r ≠ vF := by simpa using hr
    rw [State.getV_latchKeys, State.getV_setV, if_neg hx, State.getV_setV, if_neg hF, State.getV_advance]
  all_goals simp

/-- The frame of RND. -/
theorem writesAtMost_randomMasked (r : Byte) (x : Reg) (nn : Byte) (s : State) :
    WritesAtMost { regs := [x], draw := true } s (randomMasked r x nn s.advance).latchKeys := by
  constructor
  case regs =>
    intro q hq
    rw [State.getV_latchKeys, randomMasked, State.getV_setV, if_neg (List.ne_of_not_mem_cons hq), State.getV_countDraw,
      State.getV_advance]
  all_goals simp [randomMasked]

/-- The frame of RET and CALL. -/
theorem writesAtMost_callStack (s : State) (stack : Vector Word 16) (sp : Fin 17) (pc : Word) :
    WritesAtMost { callStack := true } s { s with stack := stack, sp := sp, pc := pc, keysPrev := s.keysCur } := by
  constructor
  case regs => exact fun r _ => State.getV_congr rfl r
  all_goals simp

/-- The frame of an effect that writes memory: the cells that read otherwise afterwards. -/
theorem writesAtMost_mem {s : State} {m : Memory} {addresses : List Nat}
    (hread : ∀ a, a ∉ addresses → m.read a = s.mem.read a) (pc : Word) :
    WritesAtMost { memory := addresses } s { s with mem := m, pc := pc, keysPrev := s.keysCur } := by
  constructor
  case regs => exact fun r _ => State.getV_congr rfl r
  case memory => exact hread
  all_goals simp

/-- The frame of a draw. -/
theorem writesAtMost_draw (s : State) (fb : Framebuffer) (flag : Byte) :
    WritesAtMost { regs := [vF], framebuffer := true } s
      { s with fb := fb, v := s.v.set vF.val flag, pc := s.pc + 2, keysPrev := s.keysCur } := by
  constructor
  case regs => exact (writesAtMost_setV s vF flag).regs
  all_goals simp

/-- The frame of a load of V0 to Vx. -/
theorem writesAtMost_loadRegs {s : State} {x : Reg} {bytes : List Byte} (hlen : bytes.length = x.val + 1) :
    WritesAtMost { regs := (List.finRange 16).filter (· ≤ x) } s
      { s with v := loadRegs s.v 0 bytes, pc := s.pc + 2, keysPrev := s.keysCur } := by
  constructor
  case regs =>
    intro r hr
    have hx : x.val < r.val := Fin.lt_def.mp (by simpa using hr)
    exact (loadRegs_getElem s.v 0 bytes r.val r.isLt).trans (dif_neg (by omega))
  all_goals simp

/-- Writing nothing is within any allowance of registers. -/
theorem WritesAtMost.allow_regs {s t : State} (h : WritesAtMost {} s t) (regs : List Reg) :
    WritesAtMost { regs := regs } s t :=
  { h with regs := fun r _ => h.regs r List.not_mem_nil }

/-! ### Every instruction completes or faults -/

/-- `t` has the memory of `s` as it was, or after a store at I that raised no fault. -/
def KeepsOrStores (s t : State) : Prop := t.mem = s.mem ∨ ∃ bytes, writeBytes s.mem s.idx.toNat bytes = .ok t.mem

/-- An instruction raises the fault of the table and takes it, or completes within its frame. -/
def CompletesOrFaults (i : Instr) (s : State) : Prop :=
  (faultRaised i s = none ∧ ∃ t, exec i s = .next t ∧ WritesAtMost (mayWrite i s) s t ∧ KeepsOrStores s t) ∨
    ∃ f, faultRaised i s = some f ∧ exec i s = .next (s.enterFault f)

theorem ret_completesOrFaults (s : State) : CompletesOrFaults .ret s := by
  by_cases hsp : s.sp = 0
  · exact .inr ⟨_, if_pos hsp, execRet_error hsp⟩
  · exact .inl ⟨if_neg hsp, _, execRet_ok (Fin.val_ne_zero_iff.mpr hsp), writesAtMost_callStack s s.stack _ _, .inl rfl⟩

theorem call_completesOrFaults (nnn : Addr12) (s : State) : CompletesOrFaults (.call nnn) s := by
  by_cases hsp : s.sp = 16
  · exact .inr ⟨_, if_pos hsp, execCall_error nnn hsp⟩
  · exact .inl ⟨if_neg hsp, _, execCall_ok nnn (by omega), writesAtMost_callStack s _ _ _, .inl rfl⟩

theorem skpVx_completesOrFaults (x : Reg) (s : State) : CompletesOrFaults (.skpVx x) s := by
  by_cases hkey : 0x0F < (s.getV x).toNat
  · exact .inr ⟨_, if_pos hkey, execSkpVx_error hkey⟩
  · exact .inl ⟨if_neg hkey, _, execSkpVx_ok (by omega), writesAtMost_skipIf s _, .inl (State.skipIf_mem _ _)⟩

theorem sknpVx_completesOrFaults (x : Reg) (s : State) : CompletesOrFaults (.sknpVx x) s := by
  by_cases hkey : 0x0F < (s.getV x).toNat
  · exact .inr ⟨_, if_pos hkey, execSknpVx_error hkey⟩
  · exact .inl ⟨if_neg hkey, _, execSknpVx_ok (by omega), writesAtMost_skipIf s _, .inl (State.skipIf_mem _ _)⟩

theorem drwVxVyN_completesOrFaults (x y : Reg) (n : Count) (s : State) : CompletesOrFaults (.drwVxVyN x y n) s := by
  by_cases hpast : n ≠ 0 ∧ Config.memSize ≤ s.idx.toNat + n.val - 1
  · have hn : n.val ≠ 0 := Fin.val_ne_zero_iff.mpr hpast.1
    refine .inr ⟨_, if_pos hpast, ?_⟩
    rw [exec_drwVxVyN, execDrwVxVyN_error hn (by omega), boundsFault_eq_pastMemory]
  · have hfits : n.val = 0 ∨ s.idx.toNat + n.val ≤ Config.memSize := by
      rw [ne_eq, Fin.ext_iff, Fin.val_zero] at hpast
      omega
    exact .inl ⟨if_neg hpast, _, execDrwVxVyN_ok hfits, writesAtMost_draw s _ _, .inl rfl⟩

theorem ldVxMem_completesOrFaults (x : Reg) (s : State) : CompletesOrFaults (.ldVxMem x) s := by
  by_cases hpast : Config.memSize ≤ s.idx.toNat + x.val
  · refine .inr ⟨_, if_pos hpast, ?_⟩
    rw [exec_ldVxMem, execLdVxMem_error (by omega), boundsFault_eq_pastMemory]
  · exact .inl ⟨if_neg hpast, _, execLdVxMem_ok (by omega), writesAtMost_loadRegs (by simp), .inl rfl⟩

/-- Fx33 and Fx55 that stay within memory change no cell but those they store to. -/
theorem runStore_frame {s : State} {bytes : State → List Byte} (hb : bytes s.advance = bytes s)
    (hfits : s.idx.toNat + (bytes s).length ≤ Config.memSize) :
    ∃ m, runInstruction (fun t => storeAtIndex t (bytes t)) s =
        .next { s with mem := m, pc := s.pc + 2, keysPrev := s.keysCur } ∧
      writeBytes s.mem s.idx.toNat (bytes s) = .ok m ∧
      ∀ a, ¬(s.idx.toNat ≤ a ∧ a < s.idx.toNat + (bytes s).length) → m.read a = s.mem.read a := by
  obtain ⟨m, hm, hread⟩ := writeBytes_frame s.mem s.idx.toNat (bytes s) hfits
  refine ⟨m, runInstruction_ok (effect := fun t => storeAtIndex t (bytes t)) (t := { s with mem := m, pc := s.pc + 2 }) ?_,
    hm, hread⟩
  rw [hb, storeAtIndex, dataAddress, Nat.add_zero, State.advance_mem, State.advance_idx, hm]
  rfl

/-- Fx33 and Fx55 that leave the memory fault. -/
theorem runStore_error {s : State} {bytes : State → List Byte} (hb : bytes s.advance = bytes s) (hne : bytes s ≠ [])
    (hpast : Config.memSize < s.idx.toNat + (bytes s).length) :
    runInstruction (fun t => storeAtIndex t (bytes t)) s = .next (s.enterFault (pastMemory s)) := by
  rw [← boundsFault_eq_pastMemory]
  refine runInstruction_error (effect := fun t => storeAtIndex t (bytes t)) ?_
  rw [hb]
  exact storeAtIndex_error (s := s.advance) (bytes s) hne hpast

theorem ldBVx_completesOrFaults (x : Reg) (s : State) : CompletesOrFaults (.ldBVx x) s := by
  by_cases hpast : Config.memSize ≤ s.idx.toNat + 2
  · exact .inr ⟨_, if_pos hpast,
      runStore_error (bytes := fun t => decimalDigits (t.getV x)) rfl (List.cons_ne_nil _ _)
        (by rw [decimalDigits_length]; omega)⟩
  · obtain ⟨m, hrun, hm, hread⟩ := runStore_frame (s := s) (bytes := fun t => decimalDigits (t.getV x)) rfl
      (by rw [decimalDigits_length]; omega)
    refine .inl ⟨if_neg hpast, _, hrun, writesAtMost_mem (fun a ha => hread a fun hin => ha ?_) _, .inr ⟨_, hm⟩⟩
    rw [decimalDigits_length] at hin
    simp only [dataAddress, List.mem_cons, List.not_mem_nil, or_false]
    omega

theorem ldMemVx_completesOrFaults (x : Reg) (s : State) : CompletesOrFaults (.ldMemVx x) s := by
  have hlen := regsUpTo_length s x
  by_cases hpast : Config.memSize ≤ s.idx.toNat + x.val
  · exact .inr ⟨_, if_pos hpast,
      runStore_error (bytes := fun t => regsUpTo t x) rfl (List.ne_nil_of_length_eq_add_one hlen) (by rw [hlen]; omega)⟩
  · obtain ⟨m, hrun, hm, hread⟩ := runStore_frame (s := s) (bytes := fun t => regsUpTo t x) rfl (by rw [hlen]; omega)
    refine .inl ⟨if_neg hpast, _, hrun, writesAtMost_mem (fun a ha => hread a fun hin => ha ?_) _, .inr ⟨_, hm⟩⟩
    rw [hlen] at hin
    exact List.mem_map.mpr ⟨a - s.idx.toNat, List.mem_range.mpr (by omega), by rw [dataAddress]; omega⟩

theorem ldVxK_completesOrFaults (x : Reg) (s : State) : CompletesOrFaults (.ldVxK x) s := by
  refine .inl ⟨rfl, _, rfl, ?_⟩
  split
  · exact ⟨writesAtMost_setV s x _, .inl rfl⟩
  · exact ⟨(writesAtMost_pc s s.pc).allow_regs [x], .inl rfl⟩

/-- Every instruction completes, within what it may write, or takes the fault of the table. -/
theorem completesOrFaults (i : Instr) (s : State) : CompletesOrFaults i s := by
  cases i
  case ret => exact ret_completesOrFaults s
  case call nnn => exact call_completesOrFaults nnn s
  case skpVx x => exact skpVx_completesOrFaults x s
  case sknpVx x => exact sknpVx_completesOrFaults x s
  case drwVxVyN x y n => exact drwVxVyN_completesOrFaults x y n s
  case ldBVx x => exact ldBVx_completesOrFaults x s
  case ldMemVx x => exact ldMemVx_completesOrFaults x s
  case ldVxMem x => exact ldVxMem_completesOrFaults x s
  case ldVxK x => exact ldVxK_completesOrFaults x s
  all_goals refine .inl ⟨rfl, _, rfl, ?_⟩
  case jp | jpV0Nnn | sysNnn => exact ⟨writesAtMost_pc s _, .inl rfl⟩
  case seVxNn | sneVxNn | seVxVy | sneVxVy => exact ⟨writesAtMost_skipIf s _, .inl (State.skipIf_mem _ _)⟩
  case ldVxNn | addVxNn | ldVxVy | orVxVy | andVxVy | xorVxVy | ldVxDt => exact ⟨writesAtMost_setV s _ _, .inl rfl⟩
  case addVxVy | subVxVy | subnVxVy => exact ⟨writesAtMost_setThenFlag s _ _ _, .inl rfl⟩
  case shrVxVy | shlVxVy => exact ⟨writesAtMost_flagThenSet s _ _ _, .inl rfl⟩
  case rndVxNn => exact ⟨writesAtMost_randomMasked _ _ _ s, .inl rfl⟩
  case ldINnn | addIVx | ldFVx => exact ⟨writesAtMost_setIdx s _, .inl rfl⟩
  case ldDtVx => exact ⟨writesAtMost_dt s _, .inl rfl⟩
  case ldStVx => exact ⟨writesAtMost_st s _, .inl rfl⟩
  case cls | clrfbN => exact ⟨writesAtMost_fb s _, .inl rfl⟩

/-- What is known of the state after an instruction. -/
theorem exec_next_cases {i : Instr} {s t : State} (h : exec i s = .next t) :
    (faultRaised i s = none ∧ WritesAtMost (mayWrite i s) s t ∧ KeepsOrStores s t) ∨
      ∃ f, faultRaised i s = some f ∧ t = s.enterFault f := by
  obtain ⟨hnone, u, hu, hframe⟩ | ⟨f, hf, hu⟩ := completesOrFaults i s <;> cases h.symm.trans hu
  · exact .inl ⟨hnone, hframe⟩
  · exact .inr ⟨f, hf, rfl⟩

/-! ### The statements -/

/-- Settles O14: an instruction of which the table names a fault takes it, and one of which it names none completes within its
frame (`completesOrFaults`). -/
theorem faultsAreExactlyTheTable : Obligations.FaultsAreExactlyTheTable := by
  intro i s
  obtain ⟨hnone, t, ht, hframe, -⟩ | ⟨f, hf, ht⟩ := completesOrFaults i s
  · rw [hnone]
    exact ⟨nofun, fun _ => ⟨t, ht, hframe.keysPrev, hframe.halted, hframe.faultCause, hframe.faultInfo⟩⟩
  · rw [hf]
    exact ⟨fun g hg => Option.some.inj hg ▸ ht, nofun⟩

/-- Settles O13: fault entry is one record update, whether or not a fault is recorded already. -/
theorem faultEntryIsPrecise : Obligations.FaultEntryIsPrecise := by
  refine ⟨fun s f => ?_, rfl, rfl, rfl, rfl, rfl⟩
  unfold State.enterFault
  split <;> simp [*]

end Sys2Proof.Machine
end

section
/-! The tick (40_execution_cycle.md R100 to R108): its next state case by case, and the statements about it. -/

namespace Sys2Proof.Machine

/-! ### One lemma per case of the tick -/

/-- Before the first reset or load a tick has no step (10_state.md R38). -/
theorem step_of_not_started {s : State} (hstart : s.started = false) : step s = .fault .beforeReset := if_pos hstart

/-- While HALTED a tick changes nothing (40_execution_cycle.md R101). -/
theorem step_of_halted {s : State} (hstart : s.started = true) (hhalt : s.halted = true) : step s = .next s := by
  simp [step, tick, hstart, hhalt]

theorem step_eq_executeOne {s : State} (hrun : running s) : step s = executeOne s.decrementTimers := by
  simp [step, tick, hrun.1, hrun.2]

/-- A tick whose fetch leaves the memory takes the fetch's fault (40_execution_cycle.md R102). -/
theorem step_of_not_fetchable {s : State} (hrun : running s) (hfetch : ¬fetchable s) :
    step s = .next (s.decrementTimers.enterFault (boundsFault (max s.pc.toNat Config.memSize))) := by
  rw [step_eq_executeOne hrun, executeOne, fetch_error (s := s.decrementTimers) (Nat.le_of_not_lt hfetch)]
  rfl

/-- The fault of a fetch that leaves the memory: its first address outside is PC, or 0x1000 where PC is the last cell. -/
theorem boundsFault_fetch (pc : Word) :
    boundsFault (max pc.toNat Config.memSize) =
      { cause := .memBounds, info := if pc.toNat < 0x1000 then 0x1000#16 else pc } := by
  unfold boundsFault
  split
  · rw [Nat.max_eq_right (Nat.le_of_lt ‹_›)]
  · rw [Nat.max_eq_left (Nat.le_of_not_lt ‹_›), BitVec.ofNat_toNat, BitVec.setWidth_eq]

/-- A tick on an UNKNOWN word reports it and goes on (40_execution_cycle.md R108). -/
theorem step_of_unknown {s : State} {r : DecodeReject} (hrun : running s) (hfetch : fetchable s)
    (hdecode : decode (wordAtPc s) = .error r) :
    step s = .next (s.decrementTimers.advance.report (.unknownOpcode s.pc (wordAtPc s))).latchKeys := by
  rw [step_eq_executeOne hrun, executeOne, fetch_decrementTimers hfetch]
  simp only [hdecode]
  rfl

/-- The frame of an UNKNOWN word. -/
theorem writesAtMost_report (s : State) (event : Report) :
    WritesAtMost { report := true } s (s.advance.report event).latchKeys := by
  constructor
  case regs => exact fun r _ => State.getV_congr rfl r
  all_goals simp

/-! ### All a tick can do -/

/-- `t` has the registers, I, the call stack, the framebuffer and the memory of `s`, and is started exactly as `s` is. -/
structure KeepsData (s t : State) : Prop where
  v : t.v = s.v
  idx : t.idx = s.idx
  stack : t.stack = s.stack
  sp : t.sp = s.sp
  fb : t.fb = s.fb
  mem : t.mem = s.mem
  started : t.started = s.started

/-- A tick ran the instruction at PC, and it raised no fault. -/
structure RanInstruction (i : Instr) (s t : State) : Prop where
  runs : running s
  fetches : fetchable s
  decodes : decode (wordAtPc s) = .ok i
  executes : exec i s.decrementTimers = .next t
  noFault : faultRaised i s.decrementTimers = none
  frame : WritesAtMost (mayWrite i s.decrementTimers) s.decrementTimers t
  memory : KeepsOrStores s.decrementTimers t

/-- A tick took a fault: of the fetch, or of the instruction at PC. -/
def TookFault (s t : State) : Prop :=
  ∃ f, t = s.decrementTimers.enterFault f ∧
    (f = boundsFault (max s.pc.toNat Config.memSize) ∨ ∃ i, faultRaised i s.decrementTimers = some f)

/-- A tick ran an UNKNOWN word, and reported it. -/
def RanUnknown (s t : State) : Prop :=
  t = (s.decrementTimers.advance.report (.unknownOpcode s.pc (wordAtPc s))).latchKeys

/-- A tick of a running block has a next state, and this is all it can do. -/
theorem step_of_running {s : State} (hrun : running s) :
    ∃ t, step s = .next t ∧ (TookFault s t ∨ RanUnknown s t ∨ ∃ i, RanInstruction i s t) := by
  by_cases hfetch : fetchable s
  · cases hdecode : decode (wordAtPc s) with
    | error r => exact ⟨_, step_of_unknown hrun hfetch hdecode, .inr (.inl rfl)⟩
    | ok i =>
      rw [step_eq_exec hrun hfetch hdecode]
      obtain ⟨hnone, t, ht, hframe, hmem⟩ | ⟨f, hf, ht⟩ := completesOrFaults i s.decrementTimers
      · exact ⟨t, ht, .inr (.inr ⟨i, hrun, hfetch, hdecode, ht, hnone, hframe, hmem⟩)⟩
      · exact ⟨_, ht, .inl ⟨f, rfl, .inr ⟨i, hf⟩⟩⟩
  · exact ⟨_, step_of_not_fetchable hrun hfetch, .inl ⟨_, rfl, .inl rfl⟩⟩

/-- All a tick with a next state can do. -/
theorem step_next_cases {s t : State} (h : step s = .next t) :
    (s.halted = true ∧ t = s) ∨ TookFault s t ∨ RanUnknown s t ∨ ∃ i, RanInstruction i s t := by
  by_cases hstart : s.started = true
  · by_cases hhalt : s.halted = true
    · cases h.symm.trans (step_of_halted hstart hhalt)
      exact .inl ⟨hhalt, rfl⟩
    · obtain ⟨u, hu, hcases⟩ := step_of_running ⟨hstart, Bool.eq_false_of_not_eq_true hhalt⟩
      cases h.symm.trans hu
      exact .inr hcases
  · cases h.symm.trans (step_of_not_started (Bool.eq_false_of_not_eq_true hstart))

/-- A tick that runs no instruction to its end keeps the data. -/
theorem step_keepsData_or_ranInstruction {s t : State} (h : step s = .next t) :
    KeepsData s t ∨ ∃ i, RanInstruction i s t := by
  obtain ⟨-, rfl⟩ | ⟨f, rfl, -⟩ | rfl | hran := step_next_cases h
  · exact .inl ⟨rfl, rfl, rfl, rfl, rfl, rfl, rfl⟩
  · exact .inl (by constructor <;> simp)
  · exact .inl (by constructor <;> rfl)
  · exact .inr hran

/-- A tick of a started block has a next state, and the block stays started. -/
theorem step_of_started {s : State} (hstart : s.started = true) : ∃ t, step s = .next t ∧ t.started = true := by
  have hnext : ∃ t, step s = .next t := by
    by_cases hhalt : s.halted = true
    · exact ⟨s, step_of_halted hstart hhalt⟩
    · exact (step_of_running ⟨hstart, Bool.eq_false_of_not_eq_true hhalt⟩).imp fun _ => And.left
  obtain ⟨t, ht⟩ := hnext
  refine ⟨t, ht, ?_⟩
  obtain hkeeps | ⟨i, hran⟩ := step_keepsData_or_ranInstruction ht
  · exact hkeeps.started.trans hstart
  · exact hran.frame.started.trans hstart

/-! ### A word placed for the next tick -/

/-- Where `placeWord` leaves PC the next tick can fetch. -/
theorem fetchable_placeWord (s : State) (op : Word) : fetchable (placeWord s op) := by
  unfold fetchable placeWord
  dsimp only
  split
  · assumption
  · decide

/-- The memory after `placeWord`: the bytes of the word at PC, and what was there elsewhere. -/
theorem read_placeWord {s : State} (hwf : s.mem.wf = true) (op : Word) (c : Nat) :
    (placeWord s op).mem.read c =
      if c = (placeWord s op).pc.toNat + 1 then (bytesOfWord op).2
      else if c = (placeWord s op).pc.toNat then (bytesOfWord op).1 else s.mem.read c := by
  have hhigh := Memory.wf_write (bytesOfWord op).1 hwf (Nat.lt_of_succ_lt (fetchable_placeWord s op))
  rw [← Memory.read_write hwf]
  exact Memory.read_write hhigh _ _ c

theorem wordAtPc_placeWord {s : State} (hwf : s.mem.wf = true) (op : Word) : wordAtPc (placeWord s op) = op := by
  rw [wordAtPc, read_placeWord hwf, read_placeWord hwf, if_neg (Nat.ne_of_lt (Nat.lt_succ_self _)), if_pos rfl, if_pos rfl,
    opcodeOfBytes_bytesOfWord]

theorem decode_of_decodeTableWord {nbits w : Nat} {i : Instr} (h : decodeTableWord nbits w = some i) :
    decode (tableWord nbits w) = .ok i := by
  unfold decodeTableWord at h
  rw [decodeBytes, opcodeOfBytes_bytesOfWord] at h
  cases hdecode : decode (tableWord nbits w) with
  | error r => simp [hdecode, Except.map] at h
  | ok j => simpa [hdecode, Except.map] using h

theorem bytesOfWord_tableWord (w : Nat) :
    bytesOfWord (tableWord 16 w) = (BitVec.ofNat 8 (w / 256), BitVec.ofNat 8 w) := by
  apply Prod.ext <;> apply BitVec.eq_of_toNat_eq <;>
    simp only [bytesOfWord, tableWord, BitVec.extractLsb'_toNat, BitVec.toNat_ofNat, Nat.shiftRight_eq_div_pow] <;> omega

/-! ### The statements -/

/-- Settles O6: the decrement is the one the statement writes out. -/
theorem stepRunsDecodedInstruction : Obligations.StepRunsDecodedInstruction :=
  fun _ _ hrun hfetch hdecode => step_eq_exec hrun hfetch hdecode

/-- Settles O7: the tick's next state is `step_of_unknown`. -/
theorem unknownWordIsReportedAndSkipped : Obligations.UnknownWordIsReportedAndSkipped := by
  intro s r hrun hfetch hdecode
  have hframe := writesAtMost_report s.decrementTimers (.unknownOpcode s.pc (wordAtPc s))
  refine ⟨_, step_of_unknown hrun hfetch hdecode, rfl, rfl, countDown_toNat s.dt, countDown_toNat s.st, ?_⟩
  exact { hframe with delayTimer := nofun, soundTimer := nofun }

/-- Settles O8: the tick takes the fetch's fault (`step_of_not_fetchable`), and no fault is recorded yet. -/
theorem fetchPastMemoryFaults : Obligations.FetchPastMemoryFaults := by
  intro s hrun hfetch hcause
  refine (step_of_not_fetchable hrun hfetch).trans (congrArg Host.Outcome.next ?_)
  rw [State.enterFault, if_pos (c := s.decrementTimers.faultCause = _) hcause, boundsFault_fetch]
  rfl

/-- Settles O9: one lemma for each of the three clauses. -/
theorem ticksStopOnlyBeforeReset : Obligations.TicksStopOnlyBeforeReset :=
  fun _ => ⟨step_of_not_started, step_of_started, step_of_halted⟩

/-- Settles O11, by induction on the number of ticks: each takes one from DT (`step_dt`). -/
theorem delayTimerAfterTicks : Obligations.DelayTimerAfterTicks := by
  intro run j hticks
  induction j with
  | zero => rfl
  | succ j ih =>
    obtain ⟨hrun, hstep, hno⟩ := hticks j j.lt_succ_self
    have hlast : (run (j + 1)).dt = countDown (run j).dt := step_dt hrun hstep fun ⟨_, x, hload⟩ => hno x hload
    rw [hlast, countDown_toNat, ih fun k hk => hticks k (Nat.lt_succ_of_lt hk), Nat.sub_sub]

/-- Settles O12: the next tick decodes the placed word, and runs in the placed state with the timers counted down. -/
theorem placedWordRunsNext : Obligations.PlacedWordRunsNext := by
  intro s w i hwf htable
  have hread := read_placeWord hwf (tableWord 16 w)
  rw [bytesOfWord_tableWord] at hread
  have hdecode : decode (wordAtPc (placeWord s (tableWord 16 w))) = .ok i := by
    rw [wordAtPc_placeWord hwf, decode_of_decodeTableWord htable]
  have hstep : step (s.withFetchWord 16 w) = exec i (placeWord s (tableWord 16 w)).decrementTimers :=
    step_eq_exec ⟨rfl, rfl⟩ (fetchable_placeWord s _) hdecode
  refine ⟨_, hstep, rfl, (hread _).trans ?high, (hread _).trans ?low, fun a hhigh hlow => (hread a).trans ?others,
    countDown_toNat s.dt, countDown_toNat s.st, rfl, rfl, rfl, rfl, rfl, rfl, rfl, rfl, rfl, rfl, rfl, rfl, rfl⟩
  case high => exact (if_neg (Nat.ne_of_lt (Nat.lt_succ_self _))).trans (if_pos rfl)
  case low => exact if_pos rfl
  case others => exact (if_neg hlow).trans (if_neg hhigh)

end Sys2Proof.Machine
end

section
/-! The invariant (20_memory.md R50, 60_exceptions.md R250, R252, R254): every tick and every operation of the host keeps it;
and what sequences of operations keep (00_scope.md R11, 60_exceptions.md R271). -/

namespace Sys2Proof.Machine

/-! ### Fault records -/

/-- The fault record of an access that leaves the memory. -/
theorem legalFaultRecord_boundsFault (address : Word) :
    legalFaultRecord .memBounds (boundsFault (max address.toNat Config.memSize)).info := by
  change 0x1000 ≤ (boundsFault _).info.toNat
  rw [boundsFault_fetch]
  dsimp only
  split
  · decide
  · exact Nat.le_of_not_lt ‹_›

/-- Every fault of the table is recorded as R250 has it. -/
theorem legalFaultRecord_of_faultRaised {i : Instr} {s : State} {f : Raised} (h : faultRaised i s = some f) :
    legalFaultRecord f.cause f.info := by
  have hpast : legalFaultRecord (pastMemory s).cause (pastMemory s).info := by
    rw [← boundsFault_eq_pastMemory]
    exact legalFaultRecord_boundsFault s.idx
  cases i
  case ret =>
    obtain ⟨-, ⟨⟩⟩ := Option.ite_none_right_eq_some.mp h
    rfl
  case call nnn =>
    obtain ⟨-, ⟨⟩⟩ := Option.ite_none_right_eq_some.mp h
    exact (zextAddr_toNat nnn).trans_lt nnn.isLt
  case skpVx x | sknpVx x =>
    obtain ⟨hkey, ⟨⟩⟩ := Option.ite_none_right_eq_some.mp h
    have hwidth : ((s.getV x).setWidth 16).toNat = (s.getV x).toNat := BitVec.toNat_setWidth_of_le (by decide)
    exact ⟨hwidth ▸ hkey, hwidth ▸ Nat.le_of_lt_succ (s.getV x).isLt⟩
  case drwVxVyN | ldBVx | ldMemVx | ldVxMem =>
    obtain ⟨-, ⟨⟩⟩ := Option.ite_none_right_eq_some.mp h
    exact hpast
  all_goals cases h

/-! ### What keeps the invariant -/

/-- The invariant speaks of the memory and the fault state alone. -/
theorem Inv.congr {s t : State} (h : Inv s) (hmem : t.mem = s.mem) (hcause : t.faultCause = s.faultCause)
    (hinfo : t.faultInfo = s.faultInfo) (hhalt : t.halted = s.halted) : Inv t :=
  ⟨hmem ▸ h.memory, hcause ▸ hinfo ▸ h.faultRecord, hcause ▸ hhalt ▸ h.stopped⟩

/-- The countdown of the timers keeps the invariant. -/
theorem Inv.decrementTimers {s : State} (h : Inv s) : Inv s.decrementTimers := h.congr rfl rfl rfl rfl

/-- Taking a fault with a legal record keeps the invariant. -/
theorem Inv.enterFault {s : State} {f : Raised} (h : Inv s) (hf : legalFaultRecord f.cause f.info) : Inv (s.enterFault f) := by
  refine ⟨by simpa using h.memory, ?_, fun _ => by simp⟩
  by_cases hcause : s.faultCause = .noFault
  · simpa [hcause] using hf
  · simpa [hcause] using h.faultRecord

/-- A store keeps the canonical form of the memory. -/
theorem KeepsOrStores.wf {s t : State} (h : KeepsOrStores s t) (hwf : s.mem.wf = true) : t.mem.wf = true := by
  obtain hmem | ⟨bytes, hstore⟩ := h
  · exact hmem ▸ hwf
  · exact writeBytes_wf hwf hstore

theorem inv_step {s t : State} (hinv : Inv s) (hstep : step s = .next t) : Inv t := by
  have hcounted := hinv.decrementTimers
  obtain ⟨-, rfl⟩ | ⟨f, rfl, hf⟩ | rfl | ⟨i, hran⟩ := step_next_cases hstep
  · exact hinv
  · obtain rfl | ⟨i, hf⟩ := hf
    · exact hcounted.enterFault (legalFaultRecord_boundsFault s.pc)
    · exact hcounted.enterFault (legalFaultRecord_of_faultRaised hf)
  · exact hcounted.congr rfl rfl rfl rfl
  · have hframe := hran.frame
    refine ⟨hran.memory.wf hcounted.memory, ?_, ?_⟩
    · rw [hframe.faultCause, hframe.faultInfo]
      exact hcounted.faultRecord
    · rw [hframe.faultCause, hframe.halted]
      exact hcounted.stopped

theorem inv_reset : Inv State.reset := ⟨rfl, rfl, fun h => absurd rfl h⟩

/-- A load copies within the memory, and a rejected one leaves it. -/
theorem inv_loadProgram {s : State} (hinv : Inv s) (bytes : List Byte) : Inv (loadProgram bytes s) := by
  unfold loadProgram
  split
  case isTrue => exact hinv.congr rfl rfl rfl rfl
  case isFalse hbad =>
    have hmax : bytes.length ≤ Config.maxProgram := Nat.le_of_not_lt fun hlong => hbad (.inr hlong)
    have hfits : Config.loadAddress + bytes.length ≤ Config.memSize := Nat.add_le_add_left hmax Config.loadAddress
    exact ⟨(copyBytes_spec rfl _ bytes hfits).1, inv_reset.faultRecord, inv_reset.stopped⟩

/-! ### Sequences of operations -/

/-- An operation that changes nothing of a halted block but the key masks and the report stream: neither a reset nor an accepted
load. -/
def KeepsHalt (o : Operation) : Prop :=
  o ≠ .reset ∧ ∀ bytes, o = .loadProgram bytes → bytes.length = 0 ∨ 3584 < bytes.length

/-- `t` is `s` but for the key masks and the report stream. -/
def SameButKeysAndReports (s t : State) : Prop :=
  t = { s with keysCur := t.keysCur, keysPrev := t.keysPrev, reports := t.reports }

theorem SameButKeysAndReports.trans {s t u : State} (hst : SameButKeysAndReports s t) (htu : SameButKeysAndReports t u) :
    SameButKeysAndReports s u := by
  unfold SameButKeysAndReports at *
  rw [htu, hst]

theorem SameButKeysAndReports.halted {s t : State} (h : SameButKeysAndReports s t) : t.halted = s.halted := by
  rw [h]

/-- A load of a bad length is rejected (70_reset_and_hazards.md R293). -/
theorem loadProgram_rejected {bytes : List Byte} (hlen : bytes.length = 0 ∨ 3584 < bytes.length) (s : State) :
    loadProgram bytes s = s.report (.loadRejected bytes.length) := if_pos hlen

theorem perform_of_halted {o : Operation} {s t : State} (hhalt : s.halted = true) (ho : KeepsHalt o)
    (h : perform o s = .next t) : SameButKeysAndReports s t := by
  cases o
  case tick =>
    have hstart : s.started = true := by
      by_contra hno
      cases (step_of_not_started (Bool.eq_false_of_not_eq_true hno)).symm.trans h
    cases (step_of_halted hstart hhalt).symm.trans h
    rfl
  case reset => exact absurd rfl ho.1
  case loadProgram bytes =>
    cases h
    rw [loadProgram_rejected (ho.2 bytes rfl)]
    rfl
  case halt =>
    cases h
    unfold SameButKeysAndReports haltOp
    rw [← hhalt]
  all_goals
    cases h
    rfl

theorem performAll_cons_eq_next {o : Operation} {rest : List Operation} {s t : State}
    (h : performAll (o :: rest) s = .next t) : ∃ u, perform o s = .next u ∧ performAll rest u = .next t := by
  unfold performAll at h
  split at h
  · exact ⟨_, ‹_›, h⟩
  · cases h
  · cases h

/-- In a started block every operation has a next state and leaves the block started. -/
theorem perform_of_started (o : Operation) {s : State} (hstart : s.started = true) :
    ∃ t, perform o s = .next t ∧ t.started = true := by
  cases o
  case tick => exact step_of_started hstart
  case loadProgram bytes =>
    refine ⟨_, rfl, ?_⟩
    unfold loadProgram
    split
    · exact hstart
    · rfl
  case reset => exact ⟨_, rfl, rfl⟩
  all_goals exact ⟨_, rfl, hstart⟩

/-! ### The statements -/

/-- Settles O15: a tick that faults records a legal fault and halts, and one that completes keeps the fault state and stores
within the memory. -/
theorem stepKeepsInvariant : Obligations.StepKeepsInvariant := fun _ _ => inv_step

/-- Settles O16: memory with nothing listed is canonical, and no fault is recorded. -/
theorem invariantHoldsAtReset : Obligations.InvariantHoldsAtReset := inv_reset

/-- Settles O17: the tick is `inv_step`, a reset and a load start from `inv_reset`, and the other operations leave the memory and
the fault record. -/
theorem operationsKeepInvariant : Obligations.OperationsKeepInvariant := by
  intro o s t hinv h
  cases o
  case tick => exact inv_step hinv h
  all_goals cases h
  case reset => exact inv_reset.congr rfl rfl rfl rfl
  case loadProgram bytes => exact inv_loadProgram hinv bytes
  case halt => exact ⟨hinv.memory, hinv.faultRecord, fun _ => rfl⟩
  case setKeyMask | keyDown | keyUp => exact hinv.congr rfl rfl rfl rfl

/-- Settles O18, by induction on the sequence. -/
theorem startedBlockNeverStops : Obligations.StartedBlockNeverStops := by
  intro operations
  induction operations with
  | nil => exact fun s hstart => ⟨s, rfl, hstart⟩
  | cons o rest ih =>
    intro s hstart
    obtain ⟨u, hu, hstarted⟩ := perform_of_started o hstart
    obtain ⟨t, ht, hend⟩ := ih u hstarted
    refine ⟨t, ?_, hend⟩
    unfold performAll
    rw [hu]
    exact ht

/-- Settles O19, by induction on the sequence: a halted block stays halted, so each operation is one of `perform_of_halted`. -/
theorem haltLastsUntilReset : Obligations.HaltLastsUntilReset := by
  intro operations
  induction operations with
  | nil =>
    rintro s t - - ⟨⟩
    rfl
  | cons o rest ih =>
    intro s t hhalt hall h
    obtain ⟨u, hu, ht⟩ := performAll_cons_eq_next h
    have hfirst : SameButKeysAndReports s u := perform_of_halted hhalt (hall o List.mem_cons_self) hu
    exact hfirst.trans (ih u t (hfirst.halted.trans hhalt) (fun p hp => hall p (List.mem_cons_of_mem o hp)) ht)

end Sys2Proof.Machine
end

section
/-! Who writes what (10_state.md R22 to R30, 20_memory.md R57): a tick that changes an element ran an instruction that may write
it, and `mayWrite` says which instructions those are. -/

namespace Sys2Proof.Machine

/-! ### The instructions that may write an element -/

theorem index_mayWrite {i : Instr} {s : State} (h : (mayWrite i s).index = true) :
    (∃ nnn, i = .ldINnn nnn) ∨ (∃ x, i = .addIVx x) ∨ ∃ x, i = .ldFVx x := by
  cases i <;> simp [mayWrite] at h ⊢

theorem callStack_mayWrite {i : Instr} {s : State} (h : (mayWrite i s).callStack = true) :
    i = .ret ∨ ∃ nnn, i = .call nnn := by
  cases i <;> simp [mayWrite] at h ⊢

theorem framebuffer_mayWrite {i : Instr} {s : State} (h : (mayWrite i s).framebuffer = true) :
    i = .cls ∨ (∃ n, i = .clrfbN n) ∨ ∃ x y n, i = .drwVxVyN x y n := by
  cases i <;> simp [mayWrite] at h ⊢

theorem memory_mayWrite {i : Instr} {s : State} {a : Nat} (h : a ∈ (mayWrite i s).memory) :
    ∃ x, (i = .ldBVx x ∧ dataAddress s 0 ≤ a ∧ a ≤ dataAddress s 2) ∨
      (i = .ldMemVx x ∧ dataAddress s 0 ≤ a ∧ a ≤ dataAddress s x.val) := by
  cases i
  case ldBVx x =>
    refine ⟨x, .inl ⟨rfl, ?_⟩⟩
    simp only [mayWrite, dataAddress, List.mem_cons, List.not_mem_nil, or_false] at h ⊢
    omega
  case ldMemVx x =>
    obtain ⟨k, hk, rfl⟩ := List.mem_map.mp h
    rw [List.mem_range] at hk
    exact ⟨x, .inr ⟨rfl, Nat.add_le_add_left (Nat.zero_le k) _, Nat.add_le_add_left (Nat.le_of_lt_succ hk) _⟩⟩
  all_goals exact absurd h List.not_mem_nil

/-- The instructions that may write VF: those that write it as a flag, and those whose destination it is. -/
theorem vF_mayWrite {i : Instr} {s : State} (h : vF ∈ (mayWrite i s).regs) :
    (∃ x y, i = .addVxVy x y ∨ i = .subVxVy x y ∨ i = .shrVxVy x y ∨ i = .subnVxVy x y ∨ i = .shlVxVy x y) ∨
      (∃ x y n, i = .drwVxVyN x y n) ∨
      (∃ nn, i = .ldVxNn vF nn ∨ i = .addVxNn vF nn ∨ i = .rndVxNn vF nn) ∨
      (∃ y, i = .ldVxVy vF y ∨ i = .orVxVy vF y ∨ i = .andVxVy vF y ∨ i = .xorVxVy vF y) ∨
      i = .ldVxDt vF ∨ i = .ldVxK vF ∨ i = .ldVxMem vF := by
  cases i
  case ldVxMem x =>
    have hx : vF ≤ x := by simpa [mayWrite] using h
    have : x = vF := Fin.ext (Nat.le_antisymm (Nat.le_of_lt_succ x.isLt) hx)
    simp [this]
  case addVxVy | subVxVy | shrVxVy | subnVxVy | shlVxVy | drwVxVyN => simp
  case ldVxNn x _ | addVxNn x _ | rndVxNn x _ | ldVxVy x _ | orVxVy x _ | andVxVy x _ | xorVxVy x _ | ldVxDt x | ldVxK x =>
    obtain rfl : vF = x := List.mem_singleton.mp h
    simp
  all_goals exact absurd h List.not_mem_nil

/-! ### How RET and CALL change the call stack -/

/-- A RET that completes takes one entry off the stack and changes none. -/
theorem RanInstruction.ret {s t : State} (h : RanInstruction .ret s t) : t.sp.val + 1 = s.sp.val ∧ t.stack = s.stack := by
  have hsp : s.sp ≠ 0 := fun hempty => by simpa [faultRaised, hempty] using h.noFault
  rw [← Fin.val_ne_zero_iff] at hsp
  cases h.executes.symm.trans (execRet_ok (s := s.decrementTimers) hsp)
  exact ⟨Nat.sub_add_cancel (Nat.pos_of_ne_zero hsp), rfl⟩

/-- A CALL that completes puts one entry on the stack, at the place SP named. -/
theorem RanInstruction.call {s t : State} {nnn : Addr12} (h : RanInstruction (.call nnn) s t) :
    t.sp.val = s.sp.val + 1 ∧ ∀ k : Nat, k ≠ s.sp.val → t.stack[k]? = s.stack[k]? := by
  have hsp : s.sp ≠ 16 := fun hfull => by simpa [faultRaised, hfull] using h.noFault
  have hroom : s.sp.val < 16 := by omega
  cases h.executes.symm.trans (execCall_ok (s := s.decrementTimers) nnn hroom)
  exact ⟨rfl, fun k hk => Vector.getElem?_set_ne hroom hk.symm⟩

/-! ### The statements -/

/-- Settles O20: only instructions that may write I are left of those that can run. -/
theorem onlyIndexInstructionsChangeIndex : Obligations.OnlyIndexInstructionsChangeIndex := by
  intro s t hstep hne
  obtain hkeeps | ⟨i, hran⟩ := step_keepsData_or_ranInstruction hstep
  · exact absurd hkeeps.idx hne
  · exact ⟨i, hran.decodes, index_mayWrite (Bool.eq_true_of_not_eq_false fun h => hne (hran.frame.index h))⟩

/-- Settles O21: a cell that reads otherwise after a tick is one its instruction may store to. -/
theorem onlyStoresChangeMemory : Obligations.OnlyStoresChangeMemory := by
  intro s t a _ hstep hne
  obtain hkeeps | ⟨i, hran⟩ := step_keepsData_or_ranInstruction hstep
  · exact absurd (congrArg (Memory.read · a) hkeeps.mem) hne
  · have ha : a ∈ (mayWrite i s.decrementTimers).memory := by_contra fun h => hne (hran.frame.memory a h)
    obtain ⟨x, ⟨rfl, hrange⟩ | ⟨rfl, hrange⟩⟩ := memory_mayWrite ha
    · exact ⟨x, .inl ⟨hran.decodes, hrange⟩⟩
    · exact ⟨x, .inr ⟨hran.decodes, hrange⟩⟩

/-- Settles O22: only RET and CALL may write the call stack, and each changes it as `RanInstruction.ret` and
`RanInstruction.call` say. -/
theorem onlyCallAndReturnChangeStack : Obligations.OnlyCallAndReturnChangeStack := by
  intro s t hstep
  obtain hkeeps | ⟨i, hran⟩ := step_keepsData_or_ranInstruction hstep
  · exact ⟨fun hne => absurd hkeeps.sp hne, fun k hne => absurd (congrArg (·[k]?) hkeeps.stack) hne⟩
  by_cases hmay : (mayWrite i s.decrementTimers).callStack = true
  · obtain rfl | ⟨nnn, rfl⟩ := callStack_mayWrite hmay
    · obtain ⟨hsp, hstack⟩ := hran.ret
      exact ⟨fun _ => .inr ⟨hran.decodes, hsp⟩, fun k hne => absurd (congrArg (·[k]?) hstack) hne⟩
    · obtain ⟨hsp, hstack⟩ := hran.call
      exact ⟨fun _ => .inl ⟨nnn, hran.decodes, hsp⟩,
        fun k hne => ⟨by_contra fun hk => hne (hstack k hk), nnn, hran.decodes⟩⟩
  · obtain ⟨hstack, hsp⟩ := hran.frame.callStack (Bool.eq_false_of_not_eq_true hmay)
    exact ⟨fun hne => absurd hsp hne, fun k hne => absurd (congrArg (·[k]?) hstack) hne⟩

/-- Settles O23: only instructions that may write the framebuffer are left of those that can run. -/
theorem onlyDisplayInstructionsChangeFramebuffer : Obligations.OnlyDisplayInstructionsChangeFramebuffer := by
  intro s t hstep hne
  obtain hkeeps | ⟨i, hran⟩ := step_keepsData_or_ranInstruction hstep
  · exact absurd hkeeps.fb hne
  · exact ⟨i, hran.decodes, framebuffer_mayWrite (Bool.eq_true_of_not_eq_false fun h => hne (hran.frame.framebuffer h))⟩

/-- Settles O24: VF reads otherwise only after an instruction that may write it. -/
theorem onlyNamedInstructionsChangeFlagRegister : Obligations.OnlyNamedInstructionsChangeFlagRegister := by
  intro s t hstep hne
  obtain hkeeps | ⟨i, hran⟩ := step_keepsData_or_ranInstruction hstep
  · exact absurd (State.getV_congr hkeeps.v vF) hne
  · exact ⟨i, hran.decodes, vF_mayWrite (by_contra fun h => hne (hran.frame.regs vF h))⟩

end Sys2Proof.Machine
end

section
/-! System and control flow (40_execution_cycle.md R107, 41_control_flow.md R120 to R140): jumps, CALL and RET, and the skips. -/

namespace Sys2Proof.Machine

/-! ### Fetching past the memory -/

/-- From PC 0xFFF or 0x1000 the next fetch takes MEM_BOUNDS at 0x1000 (40_execution_cycle.md R102). -/
theorem step_faults_at_end_of_memory {s : State} (hrun : running s) (hcause : s.faultCause = .noFault)
    (hpc : s.pc = 0xFFF#16 ∨ s.pc = 0x1000#16) :
    ∃ t, step s = .next t ∧ t.faultCause = .memBounds ∧ t.faultInfo = 0x1000#16 := by
  have hfetch : ¬fetchable s := by unfold fetchable; rcases hpc with h | h <;> rw [h] <;> decide
  refine ⟨_, fetchPastMemoryFaults s hrun hfetch hcause, rfl, ?_⟩
  rcases hpc with h | h <;> rw [h] <;> rfl

/-! ### Skips -/

/-- Passing over the next instruction advances PC past two words (41_control_flow.md R121). -/
theorem pc_skipIf_advance (s : State) (c : Bool) : (s.advance.skipIf c).pc = if c then s.pc + 4 else s.pc + 2 := by
  rw [State.skipIf_pc, State.advance_pc, BitVec.add_assoc]
  rfl

/-- An instruction whose effect is a skip under a condition completes, and nothing but PC is written. -/
theorem runInstruction_skipIf (condition : State → Bool) (s : State) :
    ∃ t, runInstruction (fun t => .ok (t.skipIf (condition t))) s = .next t ∧
      t.pc = (if condition s.advance then s.pc + 4 else s.pc + 2) ∧ WritesAtMost {} s t :=
  ⟨_, runInstruction_pure _ s, pc_skipIf_advance s _, writesAtMost_skipIf s _⟩

/-- A skip on equal values. -/
theorem ite_beq_pc (a b : Byte) (p q : Word) : (if a == b then p else q) = if a = b then p else q := by
  simp

/-- A skip on different values. -/
theorem ite_bne_pc (a b : Byte) (p q : Word) : (if a != b then p else q) = if a = b then q else p := by
  simp [ite_not]

/-! ### Widening -/

/-- A byte keeps its value in a 16-bit word (00_scope.md R12). -/
@[simp] theorem zextByte_toNat (b : Byte) : (zextByte b).toNat = b.toNat := BitVec.toNat_setWidth_of_le (by decide)

/-! ### The statements -/

/-- Settles O25: SYS has no effect of its own. -/
theorem sysOnlyAdvances : Obligations.SysOnlyAdvances := fun _ s => ⟨_, rfl, rfl, writesAtMost_pc s _⟩

/-- Settles O26: the popped entry is the one below SP. -/
theorem returnPopsTopEntry : Obligations.ReturnPopsTopEntry := by
  intro s hsp
  rw [← Fin.val_ne_zero_iff] at hsp
  exact ⟨_, (exec_ret s).trans (execRet_ok hsp), Nat.sub_add_cancel (Nat.pos_of_ne_zero hsp), Vector.getElem?_eq_getElem _, rfl,
    writesAtMost_callStack s s.stack _ _⟩

/-- Settles O28: the pushed entry is the one SP named. -/
theorem callPushesReturnAddress : Obligations.CallPushesReturnAddress := by
  intro nnn s hsp
  have hroom : s.sp.val < 16 := by omega
  exact ⟨_, (exec_call nnn s).trans (execCall_ok nnn hroom), rfl, Vector.getElem?_set_self hroom,
    fun k hk => Vector.getElem?_set_ne hroom hk.symm, zextAddr_toNat nnn, writesAtMost_callStack s _ _ _⟩

/-- Settles O29: the RET pops the entry the CALL pushed. -/
theorem returnGoesBackAfterCall : Obligations.ReturnGoesBackAfterCall := by
  intro nnn s t u hsp hcall hstack hdepth
  obtain ⟨t', hcall', hpushed, hentry, -⟩ := callPushesReturnAddress nnn s hsp
  cases hcall.symm.trans hcall'
  have hnonempty : u.sp ≠ 0 := by
    rw [← Fin.val_ne_zero_iff, hdepth, hpushed]
    exact Nat.succ_ne_zero _
  obtain ⟨w, hret, hpopped, htop, -⟩ := returnPopsTopEntry u hnonempty
  have hback : w.sp = s.sp := Fin.ext (by rw [hdepth] at hpopped; omega)
  rw [hback, hstack, hentry] at htop
  exact ⟨w, hret, (Option.some.inj htop).symm, hback⟩

/-- Settles O27: the effect is the one write of PC; the jump to its own address writes the PC there was; and from 0xFFF no word
can be fetched. -/
theorem jumpGoesToTarget : Obligations.JumpGoesToTarget := by
  refine ⟨fun nnn => decode_fieldsNNN (by decide) rfl rfl, fun nnn s => ?jumps, fun nnn s hrun hfetch hpc hword => ?selfJump⟩
  case jumps =>
    refine ⟨_, rfl, zextAddr_toNat nnn, writesAtMost_pc s _, fun hnnn hrun hcause => ?_⟩
    exact step_faults_at_end_of_memory hrun hcause (.inl (congrArg zextAddr hnnn))
  case selfJump =>
    have hdecode : decode (wordAtPc s) = .ok (.jp nnn) := by
      rw [hword]
      exact decode_fieldsNNN (by decide) rfl rfl
    have htarget : zextAddr nnn = s.pc := BitVec.eq_of_toNat_eq ((zextAddr_toNat nnn).trans hpc.symm)
    refine ⟨_, step_eq_exec hrun hfetch hdecode, ?_, countDown_toNat s.dt, countDown_toNat s.st, rfl⟩
    simp only [State.jump, htarget]
    rfl

/-- Settles O30: both skip on the comparison of Vx with nn; a skip from 0xFFC ends at 0x1000, past the memory. -/
theorem skipsOnImmediate : Obligations.SkipsOnImmediate := by
  intro x nn
  refine ⟨decode_fieldsXNN (by decide) rfl rfl, decode_fieldsXNN (by decide) rfl rfl, fun s => ⟨?equal, ?differ⟩⟩
  case equal =>
    obtain ⟨t, hrun, hpc, hframe⟩ := runInstruction_skipIf (fun t => t.getV x == nn) s
    rw [ite_beq_pc] at hpc
    refine ⟨t, hrun, hpc, hframe, fun hstart hequal ⟨hstarted, hhalt⟩ hcause => ?_⟩
    refine step_faults_at_end_of_memory ⟨hframe.started.trans hstarted, hframe.halted.trans hhalt⟩
      (hframe.faultCause.trans hcause) (.inr ?_)
    rw [hpc, State.getV_advance, if_pos hequal, hstart]
    rfl
  case differ =>
    obtain ⟨t, hrun, hpc, hframe⟩ := runInstruction_skipIf (fun t => t.getV x != nn) s
    exact ⟨t, hrun, hpc.trans (ite_bne_pc ..), hframe⟩

/-- Settles O31: both skip on the comparison of Vx with Vy. -/
theorem skipsOnRegisters : Obligations.SkipsOnRegisters := by
  intro x y s
  constructor
  · obtain ⟨t, hrun, hpc, hframe⟩ := runInstruction_skipIf (fun t => t.getV x == t.getV y) s
    exact ⟨t, hrun, hpc.trans (ite_beq_pc ..), hframe⟩
  · obtain ⟨t, hrun, hpc, hframe⟩ := runInstruction_skipIf (fun t => t.getV x != t.getV y) s
    exact ⟨t, hrun, hpc.trans (ite_bne_pc ..), hframe⟩

/-- Settles O32: the sum of a byte and a 12-bit value fits into 16 bits. -/
theorem jumpV0AddsOffset : Obligations.JumpV0AddsOffset := by
  intro nnn s
  refine ⟨_, rfl, ?_, writesAtMost_pc s _⟩
  change (zextByte (s.getV v0) + zextAddr nnn).toNat = _
  rw [BitVec.toNat_add, zextByte_toNat, zextAddr_toNat]
  omega

end Sys2Proof.Machine
end

section
/-! The flag instructions of the ALU (42_alu.md R159 to R163), RND (R170), and the arithmetic on I (43_index_memory.md R183,
R185). -/

namespace Sys2Proof.Machine

/-! ### Results and flags as arithmetic -/

theorem carryFlag_eq (a b : Byte) : carryFlag a b = if 255 < a.toNat + b.toNat then 1 else 0 := by
  simp [carryFlag, flagByte]

theorem noBorrowFlag_eq (a b : Byte) : noBorrowFlag a b = if b.toNat ≤ a.toNat then 1 else 0 := by
  simp [noBorrowFlag, flagByte]

/-- The difference of SUB is taken modulo 256 (42_alu.md R150). -/
theorem aluSub_toNat (a b : Byte) : (aluSub a b).toNat = (a.toNat + 256 - b.toNat) % 256 := by
  have := b.isLt
  rw [aluSub, BitVec.toNat_ofInt]
  omega

theorem aluShr_toNat (a : Byte) : (aluShr a).toNat = a.toNat / 2 := by
  simp [aluShr, Nat.shiftRight_eq_div_pow]

theorem shrFlag_toNat (a : Byte) : (shrFlag a).toNat = a.toNat % 2 := by
  simp [shrFlag, Nat.and_one_is_mod]

theorem aluShl_toNat (a : Byte) : (aluShl a).toNat = a.toNat * 2 % 256 := by
  simp [aluShl, Nat.shiftLeft_eq]

theorem shlFlag_toNat (a : Byte) : (shlFlag a).toNat = a.toNat / 128 := by
  simp [shlFlag, Nat.shiftRight_eq_div_pow]

theorem fontAddress_toNat (b : Byte) : (fontAddress b).toNat = b.toNat * 5 := by
  rw [fontAddress, BitVec.toNat_mul, zextByte_toNat]
  change b.toNat * 5 % 65536 = b.toNat * 5
  omega

/-! ### Writing a result and a flag -/

/-- An instruction that writes Vx and then VF: VF holds the flag; where x is not VF, Vx holds the result. -/
theorem runInstruction_setThenFlag (x : Reg) (result flag : State → Byte) (s : State) :
    ∃ t, runInstruction (fun t => .ok (t.setThenFlag x (result t) (flag t))) s = .next t ∧ t.getV vF = flag s.advance ∧
      (x ≠ vF → t.getV x = result s.advance) ∧ t.pc = s.pc + 2 ∧ WritesAtMost { regs := [x, vF] } s t := by
  refine ⟨_, runInstruction_pure _ s, ?_, fun hx => ?_, rfl, writesAtMost_setThenFlag s x _ _⟩
  · rw [State.getV_latchKeys, State.getV_setThenFlag, if_pos rfl]
  · rw [State.getV_latchKeys, State.getV_setThenFlag, if_neg hx, if_pos rfl]

/-- An instruction that writes VF and then Vx, which it reads again: where x is VF, the flag just written is what it reads. -/
theorem runInstruction_flagThenShift (x : Reg) (flag shift : Byte → Byte) (s : State) :
    ∃ t, runInstruction (fun t =>
          .ok ((t.setV vF (flag (t.getV x))).setV x (shift ((t.setV vF (flag (t.getV x))).getV x)))) s = .next t ∧
      (x ≠ vF → t.getV x = shift (s.getV x) ∧ t.getV vF = flag (s.getV x)) ∧
      (x = vF → t.getV vF = shift (flag (s.getV vF))) ∧ t.pc = s.pc + 2 ∧ WritesAtMost { regs := [x, vF] } s t := by
  refine ⟨_, rfl, fun hx => ?_, fun hx => ?_, rfl, writesAtMost_flagThenSet s x _ _⟩
  · simp [hx, hx.symm]
  · subst hx
    simp

/-- A subtraction a - b in Vx with "no borrow" in VF, for SUB and SUBN alike. -/
theorem runInstruction_subtract (x : Reg) (a b : State → Byte) (s : State) :
    ∃ t, runInstruction (fun t => .ok (t.setThenFlag x (aluSub (a t) (b t)) (noBorrowFlag (a t) (b t)))) s = .next t ∧
      t.getV vF = (if (b s.advance).toNat ≤ (a s.advance).toNat then 1 else 0) ∧
      (x ≠ vF → (t.getV x).toNat = ((a s.advance).toNat + 256 - (b s.advance).toNat) % 256) ∧ t.pc = s.pc + 2 ∧
      WritesAtMost { regs := [x, vF] } s t := by
  obtain ⟨t, hrun, hflag, hresult, hpc, hframe⟩ :=
    runInstruction_setThenFlag x (fun t => aluSub (a t) (b t)) (fun t => noBorrowFlag (a t) (b t)) s
  exact ⟨t, hrun, hflag.trans (noBorrowFlag_eq _ _), fun hx => hresult hx ▸ aluSub_toNat _ _, hpc, hframe⟩

/-- The register RND writes holds the masked draw. -/
theorem getV_randomMasked (r : Byte) (x : Reg) (nn : Byte) (s : State) : (randomMasked r x nn s).getV x = r &&& nn := by
  rw [randomMasked, State.getV_setV, if_pos rfl]

/-! ### The statements -/

/-- Settles O37: the result is the sum, the flag its carry. -/
theorem addSetsCarry : Obligations.AddSetsCarry := by
  intro x y s
  obtain ⟨t, hrun, hflag, hresult, hpc, hframe⟩ :=
    runInstruction_setThenFlag x (fun t => aluAdd (t.getV x) (t.getV y)) (fun t => carryFlag (t.getV x) (t.getV y)) s
  exact ⟨t, hrun, hflag.trans (carryFlag_eq _ _), fun hx => hresult hx ▸ aluAdd_toNat _ _, hpc, hframe⟩

/-- Settles O38: SUBN is SUB with the operands exchanged. -/
theorem subtractSetsNoBorrow : Obligations.SubtractSetsNoBorrow := fun x y s =>
  ⟨runInstruction_subtract x (State.getV · x) (State.getV · y) s, runInstruction_subtract x (State.getV · y) (State.getV · x) s⟩

/-- Settles O39: the flag is the bit shifted out; where x is VF the flag itself is shifted. -/
theorem shiftsSetBitShiftedOut : Obligations.ShiftsSetBitShiftedOut := by
  intro x y s
  constructor
  · obtain ⟨t, hrun, hother, hflag, hpc, hframe⟩ := runInstruction_flagThenShift x shrFlag aluShr s
    refine ⟨t, hrun, fun hx => ?_, fun hx => BitVec.eq_of_toNat_eq ?_, hpc, hframe⟩
    · rw [(hother hx).1, (hother hx).2]
      exact ⟨aluShr_toNat _, shrFlag_toNat _⟩
    · rw [hflag hx, aluShr_toNat, shrFlag_toNat]
      exact Nat.div_eq_of_lt (Nat.mod_lt _ (by decide))
  · obtain ⟨t, hrun, hother, hflag, hpc, hframe⟩ := runInstruction_flagThenShift x shlFlag aluShl s
    refine ⟨t, hrun, fun hx => ?_, fun hx => ?_, hpc, hframe⟩
    · rw [(hother hx).1, (hother hx).2]
      exact ⟨aluShl_toNat _, shlFlag_toNat _⟩
    · rw [hflag hx, aluShl_toNat, shlFlag_toNat]
      omega

/-- Settles O40: the byte written is the draw masked, bit by bit. -/
theorem randomByteIsMasked : Obligations.RandomByteIsMasked := by
  refine ⟨fun x nn s => ?runs, fun r x nn s => ⟨fun k hk => ?clears, ?keeps⟩⟩
  case runs => exact ⟨_, rfl, getV_randomMasked _ x nn s.advance, rfl, rfl, writesAtMost_randomMasked _ x nn s⟩
  case clears => rw [getV_randomMasked, BitVec.getLsbD_and, hk, Bool.and_false]
  case keeps => rw [getV_randomMasked]; exact BitVec.and_allOnes

/-- Settles O42: each is one write of I; the product of a byte with 5 fits into 16 bits. -/
theorem indexArithmetic : Obligations.IndexArithmetic := by
  intro x s
  constructor
  · refine runInstruction_setIdx (fun t => t.idx + zextByte (t.getV x)) s
      (·.toNat = (s.idx.toNat + (s.getV x).toNat) % 65536) ?_
    rw [BitVec.toNat_add, zextByte_toNat]
    rfl
  · exact runInstruction_setIdx (fun t => fontAddress (t.getV x)) s (·.toNat = (s.getV x).toNat * 5) (fontAddress_toNat _)

end Sys2Proof.Machine
end

section
/-! Stores and loads at I (43_index_memory.md R187 to R192), and stored bytes fetched later (20_memory.md R62). -/

namespace Sys2Proof.Machine

/-! ### What a store leaves in memory -/

/-- An instruction of which the table names no fault writes at most what it may. -/
theorem writesAtMost_of_exec {i : Instr} {s t : State} (h : exec i s = .next t) (hno : faultRaised i s = none) :
    WritesAtMost (mayWrite i s) s t := by
  obtain ⟨-, hframe, -⟩ | ⟨f, hf, -⟩ := exec_next_cases h
  · exact hframe
  · cases hf.symm.trans hno

/-- Fx33 and Fx55 within memory: byte k of those stored is at I + k. -/
theorem runStore_reads {s : State} (hwf : s.mem.wf = true) {bytes : State → List Byte} (hb : bytes s.advance = bytes s)
    (hfits : s.idx.toNat + (bytes s).length ≤ Config.memSize) :
    ∃ t, runInstruction (fun t => storeAtIndex t (bytes t)) s = .next t ∧ t.pc = s.pc + 2 ∧
      ∀ k, ∀ hk : k < (bytes s).length, t.mem.read (dataAddress s k) = (bytes s)[k] := by
  obtain ⟨m, hrun, -, hread⟩ := runStore_ok hwf bytes hb hfits
  refine ⟨_, hrun, rfl, fun k hk => ?_⟩
  rw [dataAddress, hread, dif_pos ⟨Nat.le_add_right .., Nat.add_lt_add_left hk _⟩]
  exact getElem_congr_idx (Nat.add_sub_cancel_left ..)

/-! ### The statements on one instruction -/

/-- Settles O43: the three bytes are the digits of Vx, and the frame is `mayWrite`'s. -/
theorem storeDecimalDigits : Obligations.StoreDecimalDigits := by
  intro x s hwf hlast
  obtain ⟨t, hrun, hpc, hread⟩ := runStore_reads hwf (bytes := fun t => decimalDigits (t.getV x)) rfl hlast
  have hno : faultRaised (.ldBVx x) s = none := if_neg (Nat.not_le_of_lt hlast)
  have h0 : t.mem.read (dataAddress s 0) = BitVec.ofNat 8 ((s.getV x).toNat / 100) := hread 0 (show 0 < 3 by decide)
  have h1 : t.mem.read (dataAddress s 1) = BitVec.ofNat 8 ((s.getV x).toNat / 10 % 10) := hread 1 (show 1 < 3 by decide)
  have h2 : t.mem.read (dataAddress s 2) = BitVec.ofNat 8 ((s.getV x).toNat % 10) := hread 2 (show 2 < 3 by decide)
  have hx := (s.getV x).isLt
  refine ⟨t, hrun, ?_, ?_, ?_, hpc, writesAtMost_of_exec (i := .ldBVx x) hrun hno⟩
  all_goals
    simp only [h0, h1, h2, BitVec.toNat_ofNat]
    omega

/-- Settles O44: byte k stored is Vk, and the frame is `mayWrite`'s. -/
theorem storeRegisters : Obligations.StoreRegisters := by
  intro x s hwf hlast
  have hlen := regsUpTo_length s x
  have hfits : s.idx.toNat + (regsUpTo s x).length ≤ Config.memSize := by rw [hlen]; exact hlast
  obtain ⟨t, hrun, hpc, hread⟩ := runStore_reads hwf (bytes := fun t => regsUpTo t x) rfl hfits
  have hno : faultRaised (.ldMemVx x) s = none := if_neg (Nat.not_le_of_lt hlast)
  refine ⟨t, hrun, fun k hk => ?_, hpc, writesAtMost_of_exec (i := .ldMemVx x) hrun hno⟩
  rw [hread k.val (by rw [hlen]; exact Nat.lt_succ_of_le hk)]
  exact regsUpTo_getElem s x k.val _

/-- Settles O45: Vk is loaded with the byte at I + k, and the frame is `mayWrite`'s. -/
theorem loadRegisters : Obligations.LoadRegisters := by
  intro x s hlast
  have hno : faultRaised (.ldVxMem x) s = none := if_neg (Nat.not_le_of_lt hlast)
  have hrun := (exec_ldVxMem x s).trans (execLdVxMem_ok hlast)
  refine ⟨_, hrun, fun k hk => ?_, rfl, writesAtMost_of_exec hrun hno⟩
  refine (loadRegs_getElem _ _ _ k.val k.isLt).trans ?_
  rw [dif_pos (by simpa using Nat.lt_succ_of_le hk)]
  simp [dataAddress]

/-- Settles O46: Fx65 reads the cells Fx55 wrote, at the same I. -/
theorem storedRegistersLoadBack : Obligations.StoredRegistersLoadBack := by
  intro x s t u hwf hlast hstore hmem hidx
  have haddress : dataAddress u = dataAddress s := by unfold dataAddress; rw [hidx]
  obtain ⟨t', hstore', hstored, -⟩ := storeRegisters x s hwf hlast
  cases hstore.symm.trans hstore'
  obtain ⟨w, hload, hloaded, -⟩ := loadRegisters x u (haddress ▸ hlast)
  exact ⟨w, hload, fun k hk => by rw [hloaded k hk, hmem, haddress, hstored k hk]⟩

/-- Settles O47: the two bytes at the next PC are the registers stored there. -/
theorem storedInstructionIsFetched : Obligations.StoredInstructionIsFetched := by
  intro x k l s t i hwf hrun hlast hstore hl hlx hpc hdecode
  obtain ⟨t', hstore', hstored, -, hframe⟩ := storeRegisters x s hwf hlast
  cases hstore.symm.trans hstore'
  have hnext : t.pc.toNat + 1 = dataAddress s l.val := by rw [hpc, hl]; rfl
  have hfetch : fetchable t := by
    rw [fetchable, hnext]
    exact (Nat.add_le_add_left (Fin.le_def.mp hlx) _).trans_lt hlast
  have hword : wordAtPc t = s.getV k ++ s.getV l := by
    have hkx : k ≤ x := Fin.le_def.mpr (by rw [Fin.le_def] at hlx; omega)
    rw [wordAtPc, hnext, hpc, hstored k hkx, hstored l hlx, opcodeOfBytes]
  exact step_eq_exec ⟨hframe.started.trans hrun.1, hframe.halted.trans hrun.2⟩ hfetch (hword ▸ hdecode)

/-! ### Stored bytes at later ticks -/

/-- The store of a tick leaves its byte at its address. -/
theorem read_of_storesByte {s t : State} {a : Nat} {b : Byte} (hwf : s.mem.wf = true) (hrun : running s) (hfetch : fetchable s)
    (hstores : storesByte s a b) (hstep : step s = .next t) : t.mem.read a = b := by
  obtain ⟨x, ⟨hdecode, hlast, hdigit⟩ | ⟨hdecode, hlast, k, hk, rfl, rfl⟩⟩ := hstores
  all_goals rw [step_eq_exec hrun hfetch hdecode] at hstep
  · obtain ⟨t', hstep', hsum, htens, hunits, -⟩ := storeDecimalDigits x s.decrementTimers hwf hlast
    cases hstep.symm.trans hstep'
    change (s.getV x).toNat = 100 * (t.mem.read (dataAddress s 0)).toNat + 10 * (t.mem.read (dataAddress s 1)).toNat +
      (t.mem.read (dataAddress s 2)).toNat at hsum
    change (t.mem.read (dataAddress s 1)).toNat < 10 at htens
    change (t.mem.read (dataAddress s 2)).toNat < 10 at hunits
    apply BitVec.eq_of_toNat_eq
    obtain ⟨rfl, hb⟩ | ⟨rfl, hb⟩ | ⟨rfl, hb⟩ := hdigit <;> omega
  · obtain ⟨t', hstep', hstored, -⟩ := storeRegisters x s.decrementTimers hwf hlast
    cases hstep.symm.trans hstep'
    exact hstored k hk

/-- A tick that may have written a cell stored a byte to it. -/
theorem RanInstruction.storesByte {i : Instr} {s t : State} {a : Nat} (h : RanInstruction i s t)
    (ha : a ∈ (mayWrite i s.decrementTimers).memory) : ∃ c, storesByte s a c := by
  have byteOf {n : Nat} (hn : n < 256) : (BitVec.ofNat 8 n).toNat = n := (BitVec.toNat_ofNat ..).trans (Nat.mod_eq_of_lt hn)
  obtain ⟨x, ⟨rfl, hlow, hhigh⟩ | ⟨rfl, hlow, hhigh⟩⟩ := memory_mayWrite ha
  · have hlast : dataAddress s 2 < Config.memSize := Nat.lt_of_not_le fun hpast => by cases (if_pos hpast).symm.trans h.noFault
    have hx := (s.getV x).isLt
    have hcell : a = dataAddress s 0 ∨ a = dataAddress s 1 ∨ a = dataAddress s 2 := by
      simp only [dataAddress, State.decrementTimers_idx] at hlow hhigh ⊢
      omega
    obtain ha | ha | ha := hcell
    · exact ⟨_, x, .inl ⟨h.decodes, hlast, .inl ⟨ha, byteOf (by omega)⟩⟩⟩
    · exact ⟨_, x, .inl ⟨h.decodes, hlast, .inr (.inl ⟨ha, byteOf (by omega)⟩)⟩⟩
    · exact ⟨_, x, .inl ⟨h.decodes, hlast, .inr (.inr ⟨ha, byteOf (by omega)⟩)⟩⟩
  · have hlast : dataAddress s x.val < Config.memSize :=
      Nat.lt_of_not_le fun hpast => by cases (if_pos hpast).symm.trans h.noFault
    simp only [dataAddress, State.decrementTimers_idx] at hlow hhigh
    let k : Reg := ⟨a - s.idx.toNat, by omega⟩
    have hk : k ≤ x := Fin.le_def.mpr (Nat.sub_le_iff_le_add'.mpr hhigh)
    exact ⟨_, x, .inr ⟨h.decodes, hlast, k, hk, (Nat.add_sub_cancel' hlow).symm, rfl⟩⟩

/-- A tick that stores nothing to an address leaves its byte. -/
theorem read_of_no_store {s t : State} {a : Nat} (hno : ∀ c, ¬storesByte s a c) (hstep : step s = .next t) :
    t.mem.read a = s.mem.read a := by
  obtain hkeeps | ⟨i, hran⟩ := step_keepsData_or_ranInstruction hstep
  · rw [hkeeps.mem]
  · refine hran.frame.memory a fun ha => ?_
    obtain ⟨c, hc⟩ := hran.storesByte ha
    exact hno c hc

/-- A byte stored at tick 0 is in memory at tick j + 1, with no store to its address in between. -/
theorem read_after_ticks {run : Nat → State} {a : Nat} {b : Byte} (hwf : (run 0).mem.wf = true) (hrun : running (run 0))
    (hfetch : fetchable (run 0)) (hstores : storesByte (run 0) a b) (j : Nat)
    (hsteps : ∀ k ≤ j, step (run k) = .next (run (k + 1)))
    (hno : ∀ k, 1 ≤ k → k ≤ j → ∀ c, ¬storesByte (run k) a c) : (run (j + 1)).mem.read a = b := by
  induction j with
  | zero => exact read_of_storesByte hwf hrun hfetch hstores (hsteps 0 (Nat.le_refl 0))
  | succ j ih =>
    rw [read_of_no_store (hno (j + 1) (Nat.succ_pos j) (Nat.le_refl _)) (hsteps (j + 1) (Nat.le_refl _))]
    exact ih (fun k hk => hsteps k (Nat.le_succ_of_le hk)) fun k h1 hk => hno k h1 (Nat.le_succ_of_le hk)

/-- The word at PC by its bytes (20_memory.md R53). -/
theorem wordAtPc_toNat (s : State) :
    (wordAtPc s).toNat = (s.mem.read s.pc.toNat).toNat * 256 + (s.mem.read (s.pc.toNat + 1)).toNat :=
  toNat_append_eq_add _ _

/-- Settles O60: the byte is still in memory (`read_after_ticks`), and the word at PC is made of the two bytes there. -/
theorem storedBytesAreFetchedLater : Obligations.StoredBytesAreFetchedLater := by
  intro run j a b hwf hrun hfetch hstores hsteps hno
  have hread := read_after_ticks hwf hrun hfetch hstores j hsteps hno
  have hword := wordAtPc_toNat (run (j + 1))
  have hlow := ((run (j + 1)).mem.read ((run (j + 1)).pc.toNat + 1)).isLt
  refine ⟨hread, fun hpc => ?_, fun hpc => ?_, fun i => step_eq_exec⟩
  · rw [hpc, hread] at hword
    rw [hpc] at hlow
    omega
  · rw [hpc, hread] at hword
    omega

end Sys2Proof.Machine
end

section
/-! The sprite draw (45_display.md R220 to R225): the pixels under set sprite bits, one draw, and two like draws. -/

namespace Sys2Proof.Machine

/-! ### The pixels of a sprite -/

theorem wrapColumn_eq_iff (cx c : Nat) (px : Fin 64) : wrapColumn cx c = px ↔ px.val = (cx + c) % 64 := by
  rw [Fin.ext_iff, eq_comm]
  rfl

theorem wrapRow_eq_iff (cy r : Nat) (py : Fin 32) : wrapRow cy r = py ↔ py.val = (cy + r) % 32 := by
  rw [Fin.ext_iff, eq_comm]
  rfl

theorem spriteRows_length (s : State) (n : Count) : (spriteRows s n).length = n.val := by
  simp [spriteRows]

theorem spriteRows_getElem (s : State) (n : Count) (r : Nat) (hr : r < (spriteRows s n).length) :
    (spriteRows s n)[r] = s.mem.read (s.idx.toNat + r) := by
  simp [spriteRows]

/-- The pixels the model's draw covers are those of the sprite at I, with the values of Vx and Vy as its origin. -/
theorem spriteCovered_iff (s : State) (x y : Reg) (n : Count) (px : Fin 64) (py : Fin 32) :
    spriteCovered (s.getV x).toNat (s.getV y).toNat 0 (spriteRows s n) px py ↔ spriteTouches s x y n px py := by
  constructor
  · rintro ⟨r, hr, hrow, c, -, hc, hbit, hcolumn⟩
    rw [spriteRows_getElem] at hbit
    rw [spriteRows_length] at hr
    rw [Nat.zero_add] at hrow hc
    exact ⟨r, c, hr, hc, hbit, (wrapColumn_eq_iff ..).mp hcolumn, (wrapRow_eq_iff ..).mp hrow⟩
  · rintro ⟨r, c, hr, hc, hbit, hcolumn, hrow⟩
    refine ⟨r, by rwa [spriteRows_length], (wrapRow_eq_iff ..).mpr (by rwa [Nat.zero_add]), c, Nat.zero_le c, by omega, ?_,
      (wrapColumn_eq_iff ..).mpr hcolumn⟩
    rwa [spriteRows_getElem]

/-- Which pixels a sprite touches depends on the memory, I and the origin alone. -/
theorem spriteTouches_congr {s u : State} {x y : Reg} (hmem : u.mem = s.mem) (hidx : u.idx = s.idx)
    (hx : u.getV x = s.getV x) (hy : u.getV y = s.getV y) (n : Count) (px : Fin 64) (py : Fin 32) :
    spriteTouches u x y n px py ↔ spriteTouches s x y n px py := by
  unfold spriteTouches
  rw [hmem, hidx, hx, hy]

/-- A byte that is not zero has a set bit. -/
theorem exists_spriteBit_of_ne_zero {row : Byte} (h : row ≠ 0x00#8) : ∃ c < 8, row.getLsbD (7 - c) = true := by
  by_contra hno
  push Not at hno
  refine h (BitVec.eq_of_getLsbD_eq fun j hj => ?_)
  have hbit := hno (7 - j) (by omega)
  rw [show 7 - (7 - j) = j by omega] at hbit
  exact (Bool.eq_false_of_not_eq_true hbit).trans BitVec.getLsbD_zero.symm

/-- A sprite touches a pixel exactly if it has a row that is not zero. -/
theorem exists_spriteTouches_iff (s : State) (x y : Reg) (n : Count) :
    (∃ px py, spriteTouches s x y n px py) ↔ ∃ r < n.val, s.mem.read (s.idx.toNat + r) ≠ 0x00#8 := by
  constructor
  · rintro ⟨px, py, r, c, hr, -, hbit, -⟩
    refine ⟨r, hr, fun hzero => ?_⟩
    rw [hzero] at hbit
    simp at hbit
  · rintro ⟨r, hr, hrow⟩
    obtain ⟨c, hc, hbit⟩ := exists_spriteBit_of_ne_zero hrow
    exact ⟨wrapColumn _ c, wrapRow _ r, r, c, hr, hc, hbit, (wrapColumn_eq_iff ..).mp rfl, (wrapRow_eq_iff ..).mp rfl⟩

/-! ### The statements -/

/-- Settles O51: what the draw does to each pixel is `drawRows_spec`, read through `spriteCovered_iff`. -/
theorem drawXorsSprite : Obligations.DrawXorsSprite := by
  intro x y n s hfits
  have hok : n.val = 0 ∨ s.idx.toNat + n.val ≤ Config.memSize := hfits.imp_left (congrArg Fin.val)
  obtain ⟨htoggled, hkept, hcollision⟩ := drawRows_spec (s.getV x).toNat (s.getV y).toNat 0 (spriteRows s n)
    (by rw [spriteRows_length]; omega) { fb := s.fb, collision := false }
  simp only [spriteCovered_iff, Bool.false_eq_true, false_or] at htoggled hkept hcollision
  have hflag (b : Byte) : (s.v.set vF.val b)[vF.val] = b := Vector.getElem_set_self _
  refine ⟨_, (exec_drwVxVyN ..).trans (execDrwVxVyN_ok hok), htoggled, hkept, fun hset => (hflag _).trans ?_,
    fun hnone => (hflag _).trans ?_, rfl, writesAtMost_draw s _ _⟩
  · exact congrArg flagByte (hcollision.mpr hset)
  · exact congrArg flagByte (Bool.eq_false_of_not_eq_true fun h => hnone (hcollision.mp h))

/-- Settles O52: the second draw toggles the same pixels as the first, in the framebuffer the first left. -/
theorem drawTwiceRestores : Obligations.DrawTwiceRestores := by
  intro x y n s t u hfits hfirst hfb hmem hidx hx hy
  obtain ⟨t', hfirst', htoggled, hkept, -⟩ := drawXorsSprite x y n s hfits
  cases hfirst.symm.trans hfirst'
  obtain ⟨w, hsecond, htoggled', hkept', hset, hclear, -⟩ := drawXorsSprite x y n u (hidx ▸ hfits)
  simp only [spriteTouches_congr hmem hidx hx hy, hfb] at htoggled' hkept' hset hclear
  have hrestored : w.fb = s.fb := by
    refine framebuffer_ext fun px py => ?_
    by_cases htouch : spriteTouches s x y n px py
    · rw [htoggled' px py htouch, htoggled px py htouch, Bool.not_not]
    · rw [hkept' px py htouch, hkept px py htouch]
  have hwas {px : Fin 64} {py : Fin 32} (htouch : spriteTouches s x y n px py) :
      pixel t.fb px py = true ↔ pixel s.fb px py = false := by
    rw [htoggled px py htouch, Bool.not_eq_true']
  have hflag : w.getV vF = 1 ↔ ∃ px py, spriteTouches s x y n px py ∧ pixel s.fb px py = false := by
    constructor
    · intro hone
      by_contra hno
      rw [hclear fun ⟨px, py, htouch, hon⟩ => hno ⟨px, py, htouch, (hwas htouch).mp hon⟩] at hone
      exact absurd hone (by decide)
    · rintro ⟨px, py, htouch, hoff⟩
      exact hset ⟨px, py, htouch, (hwas htouch).mpr hoff⟩
  refine ⟨w, hsecond, hrestored, hflag, fun hoff => ?_⟩
  rw [hflag, ← exists_spriteTouches_iff s x y n]
  exact ⟨fun ⟨px, py, htouch, _⟩ => ⟨px, py, htouch⟩, fun ⟨px, py, htouch⟩ => ⟨px, py, htouch, hoff px py htouch⟩⟩

end Sys2Proof.Machine
end

section
/-! The keypad instructions (46_keypad.md R232 to R241), and the host's reset, rejected loads and outputs
(70_reset_and_hazards.md R290 to R293, 60_exceptions.md R256, R276, R277). -/

namespace Sys2Proof.Machine

/-! ### LD Vx, K -/

/-- LD Vx, K where the mask has changed and is not zero (46_keypad.md R240). -/
theorem execLdVxK_of_transition {s : State} (x : Reg) (h : keyTransition s = true) :
    execLdVxK x s = .next (s.advance.setV x (BitVec.ofNat 8 (lowestSetBit s.keysCur))).latchKeys :=
  runInstruction_ok (congrArg Except.ok (if_pos h))

/-- LD Vx, K where it waits (46_keypad.md R241). -/
theorem execLdVxK_of_no_transition {s : State} (x : Reg) (h : keyTransition s = false) :
    execLdVxK x s = .next (s.advance.jump s.pc).latchKeys :=
  runInstruction_ok (congrArg Except.ok (if_neg (Bool.not_eq_true _ ▸ h)))

/-! ### The statements -/

/-- Settles O53: both skip on bit Vx of KEYS_CUR. -/
theorem keySkips : Obligations.KeySkips := by
  intro x s hkey
  have hrange : (s.getV x).toNat < 16 := Nat.lt_succ_of_le hkey
  refine ⟨⟨_, execSkpVx_ok hrange, pc_skipIf_advance s _, writesAtMost_skipIf s _⟩,
    ⟨_, execSknpVx_ok hrange, (pc_skipIf_advance s _).trans ?_, writesAtMost_skipIf s _⟩⟩
  cases s.keysCur.getLsbD (s.getV x).toNat <;> rfl

/-- Settles O54: on a change the lowest set bit is below 16, so the byte Vx holds is its number. -/
theorem keyWaitTakesLowestKey : Obligations.KeyWaitTakesLowestKey := by
  intro x s
  constructor
  · intro hchanged hpressed
    obtain ⟨hlt, hset, hlowest⟩ := lowestSetBit_spec hpressed
    have htransition : keyTransition s = true := by simp [keyTransition, hchanged, hpressed]
    have hvalue : (s.advance.setV x (BitVec.ofNat 8 (lowestSetBit s.keysCur))).latchKeys.getV x =
        BitVec.ofNat 8 (lowestSetBit s.keysCur) := by
      rw [State.getV_latchKeys, State.getV_setV, if_pos rfl]
    have hkey : (BitVec.ofNat 8 (lowestSetBit s.keysCur)).toNat = lowestSetBit s.keysCur :=
      (BitVec.toNat_ofNat ..).trans (Nat.mod_eq_of_lt (by omega))
    refine ⟨_, execLdVxK_of_transition x htransition, ?_, ?_, rfl, writesAtMost_setV s x _⟩
    all_goals rw [hvalue, hkey]
    · exact hset
    · exact hlowest
  · intro hwaits
    have htransition : keyTransition s = false := by
      rcases hwaits with h | h <;> simp [keyTransition, h]
    exact ⟨_, execLdVxK_of_no_transition x htransition, rfl, writesAtMost_pc s s.pc⟩

/-- Settles O56: each element of `State.reset` is read off; the draw counter and the report stream are kept. -/
theorem resetClearsEverything : Obligations.ResetClearsEverything :=
  ⟨fun _ => ⟨_, rfl, fun _ => rfl, fun r => Vector.getElem_replicate r.isLt, rfl, rfl,
    fun k => Vector.getElem_replicate k.isLt, rfl, rfl, rfl, fun k => Vector.getElem_replicate k.isLt, rfl, rfl, rfl, rfl, rfl,
    rfl, rfl, rfl⟩, rfl⟩

/-- Settles O58: a rejected load is one report. -/
theorem badLoadIsRejected : Obligations.BadLoadIsRejected := fun _ s hlen =>
  congrArg Host.Outcome.next (loadProgram_rejected hlen s)

/-- Settles O59: the outputs are fields of the state, and a pixel is a bit of the framebuffer byte R210 names. -/
theorem outputsShowState : Obligations.OutputsShowState := by
  refine fun s => ⟨rfl, audioOnOut_iff s, rfl, rfl, fun px py k hk => ?_⟩
  obtain rfl : byteIndex px py = k := Fin.ext hk.symm
  rfl

end Sys2Proof.Machine
end
